-- ==== Sys2Proof/Word.lean ====
section
/-! DEFINITION. The word types of the ports: bytes, 32-bit operand and result words, the 7-bit bus address
(spec/10_state.md R21, R30 to R33). -/

namespace Sys2Proof

/-- A byte: a register value, a frame byte, a CRC (R40, R48). -/
abbrev Byte := BitVec 8

/-- An operand field `A0`..`A4` or a result register `R0`..`R8` (R30, R32). -/
abbrev Word := BitVec 32

/-- The unshifted bus address of the device (R21). -/
abbrev BusAddr := BitVec 7

end Sys2Proof
end

