-- ==== Sys2Proof/Config.lean ====
section
/-! DEFINITION. The configuration of the block (spec/10_state.md R20 (a), spec/92_eei_decisions.md "Open parameters") and
the free values: constants without a body, of which nothing can be proved. -/

namespace Sys2Proof

/-- `Range` (spec/00_scope.md R18): a classification of a threshold, or a resolved range. -/
inductive Range where
  | lower
  | upper
  | unknown
deriving DecidableEq, Repr

/-- The three chip variants, told apart by their channel count only (R2, R10, R23). -/
inductive Variant where
  | five
  | ten
  | fifteen
deriving DecidableEq, Repr

/-- One entry `(mv, lo, up)` of a threshold table (R11, R140): `none` where the value has no code in that range. -/
structure Entry where
  mv : Word
  lo : Option Nat
  up : Option Nat
deriving DecidableEq, Repr

/-- A threshold table: its first entry and the others, in ascending order. A table without entries cannot be written
(the first half of W1, R141). -/
structure Table where
  first : Entry
  rest  : List Entry
deriving DecidableEq, Repr

/-- The configuration: constant from one reset to the next and across resets, written by no operation (R20 (a), R21 to
R23). `tSettle` is `T_SETTLE` (R14, R219). -/
structure Config where
  devAddr   : BusAddr
  crcEn     : Bool
  variant   : Variant
  tblScd    : Table
  tblOcd    : Table
  crcInit   : Byte
  crcXorOut : Byte
  tSettle   : Nat
deriving DecidableEq, Repr

namespace Config

/-- `GAIN` after the reset number `k`: unspecified (R39, U8; log 2). -/
opaque gainAfterReset : Nat → BitVec 16

/-- `OFFSET` after the reset number `k`: unspecified (R39, U8; log 2). -/
opaque offsetAfterReset : Nat → BitVec 8

/-- `SHUNT` after the reset number `k`: unspecified (R39, U8; log 2). -/
opaque shuntAfterReset : Nat → Word

/-- `CRCACC` after the reset number `k`: unspecified and unobservable (R37, R39, U8; log 2). -/
opaque crcaccAfterReset : Nat → Byte

/-- `CRCACC` after an operation that computed several byte-groups in an order the spec does not fix (R37, R98; log 9). -/
opaque crcaccAfterGroups : Nat → Byte

/-- Whether a transport call that no script answers succeeds: a free choice (R47, U9; log 6). -/
opaque freeCallSucceeds : Nat → Bool

/-- Byte `i` of the response to call number `k`, where no script gives it: a free choice (R47, U9; log 6). -/
opaque freeResponseByte : Nat → Nat → Byte

end Config

end Sys2Proof
end

