-- ==== Sys2Proof/Syntax.lean ====
section
/-! DEFINITION. The nineteen operations (spec/30_encoding.md R62, spec/opcode_table.json), one constructor per row, and
the request record a host puts on the request port (R60). -/

namespace Sys2Proof

/-- An operation with the operands its row names (R62). Operands are whole 32-bit fields: a value outside its legal range
is a reserved operand value, which the meaning refuses with `E_INVARIANT` (R78), so it stays representable here. A buffer is
`IBUF[0..ILEN-1]` (R31). -/
inductive Instr where
  /-- `RDST` (R171). -/
  | rdst
  /-- `COMMIT` (R172). -/
  | commit (shunt : Word)
  /-- `CRC8` (R99). -/
  | crc8 (buf : List Byte)
  /-- `WRREG` (R100). -/
  | wrreg (reg : Word) (buf : List Byte)
  /-- `RDREG` (R101). -/
  | rdreg (reg n : Word)
  /-- `LDCAL` (R121). -/
  | ldcal (trim1 off trim2 : Word)
  /-- `CONV` (R123). -/
  | conv (raw : Word)
  /-- `UVWIN` (R124). -/
  | uvwin
  /-- `OVWIN` (R125). -/
  | ovwin
  /-- `UVENC` (R126). -/
  | uvenc (target : Word)
  /-- `OVENC` (R127). -/
  | ovenc (target : Word)
  /-- `UVDEC` (R128). -/
  | uvdec (code : Word)
  /-- `OVDEC` (R129). -/
  | ovdec (code : Word)
  /-- `SCDTHR` (R150). -/
  | scdthr (amps shunt : Word)
  /-- `OCDTHR` (R151). -/
  | ocdthr (amps shunt : Word)
  /-- `SCDBITS` (R152). -/
  | scdbits (thr range : Word)
  /-- `OCDBITS` (R153). -/
  | ocdbits (thr range : Word)
  /-- `RECON` (R154). -/
  | recon (scd ocd : Word)
  /-- `PROTCFG` (R155). -/
  | protcfg (scd ocd shunt uv ov : Word)
deriving DecidableEq, Repr

/-- The request record (R60). Only `ibuf[0..ilen-1]` are read (R31). -/
structure Request where
  op   : Byte
  a0   : Word
  a1   : Word
  a2   : Word
  a3   : Word
  a4   : Word
  ilen : BitVec 5
  ibuf : Vector Byte 31
deriving DecidableEq, Repr

end Sys2Proof
end

