-- ==== Sys2Proof/WellFormed.lean ====
section
/-! DEFINITION. Which operations a request can carry: the input buffer holds at most 31 bytes (spec/10_state.md R31,
spec/30_encoding.md R60). No operand has a bound here: every 32-bit value can stand in a request (R78). -/

namespace Sys2Proof

/-- The capacity of `IBUF`, and the largest `ILEN` (R31). -/
def ibufBytes : Nat := 31

/-- A buffer that fits `IBUF` (R31). -/
def bufFits (buf : List Byte) : Bool := decide (buf.length ≤ ibufBytes)

/-- An operation that some request carries. -/
def Instr.wf : Instr → Bool
  | .rdst => true
  | .commit _ => true
  | .crc8 buf => bufFits buf
  | .wrreg _ buf => bufFits buf
  | .rdreg _ _ => true
  | .ldcal _ _ _ => true
  | .conv _ => true
  | .uvwin => true
  | .ovwin => true
  | .uvenc _ => true
  | .ovenc _ => true
  | .uvdec _ => true
  | .ovdec _ => true
  | .scdthr _ _ => true
  | .ocdthr _ _ => true
  | .scdbits _ _ => true
  | .ocdbits _ _ => true
  | .recon _ _ => true
  | .protcfg _ _ _ _ _ => true

end Sys2Proof
end

