-- ==== Sys2Proof/Decode.lean ====
section
/-! DEFINITION. Decoding a request into an operation, and encoding an operation as a request (spec/30_encoding.md R60,
R62, R77), with the request record laid out as one number. -/

namespace Sys2Proof

/-! ### The request record as one number -/

/-- `IBUF` as one number, byte 0 in the least significant place. -/
def bufBits (b : Vector Byte 31) : BitVec 248 :=
  BitVec.ofNat 248 (b.toList.foldr (fun x acc => x.toNat + 256 * acc) 0)

/-- The request record as one number of 421 bits: its fields in the order of R60, `OP` in bits 7..0 as
opcode_table.json numbers them, then `A0`..`A4`, `ILEN`, `IBUF[0]`, `IBUF[1]`, ... (log 5; DESIGN CHOICE, unsafe only for
a claim about this number: R60 gives the fields and their widths, not their places). -/
def Request.toBits (r : Request) : BitVec 421 :=
  bufBits r.ibuf ++ r.ilen ++ r.a4 ++ r.a3 ++ r.a2 ++ r.a1 ++ r.a0 ++ r.op

/-- The request record a number of 421 bits stands for. -/
def Request.ofBits (w : BitVec 421) : Request where
  op   := w.extractLsb' 0 8
  a0   := w.extractLsb' 8 32
  a1   := w.extractLsb' 40 32
  a2   := w.extractLsb' 72 32
  a3   := w.extractLsb' 104 32
  a4   := w.extractLsb' 136 32
  ilen := w.extractLsb' 168 5
  ibuf := Vector.ofFn fun i : Fin 31 => w.extractLsb' (173 + 8 * i.val) 8

/-! ### The opcode map -/

/-- One row of the opcode map: which operand fields, counted from `A0`, and whether the buffer, an operation reads. -/
structure OpcodeRow where
  op       : Byte
  mnemonic : String
  operands : Nat
  buffer   : Bool
deriving DecidableEq, Repr

/-- The opcode map (R62), in its order. -/
def opcodeMap : List OpcodeRow :=
  [⟨0x00, "RDST", 0, false⟩, ⟨0x01, "COMMIT", 1, false⟩, ⟨0x10, "CRC8", 0, true⟩, ⟨0x11, "WRREG", 1, true⟩,
   ⟨0x12, "RDREG", 2, false⟩, ⟨0x20, "LDCAL", 3, false⟩, ⟨0x21, "CONV", 1, false⟩, ⟨0x22, "UVWIN", 0, false⟩,
   ⟨0x23, "OVWIN", 0, false⟩, ⟨0x24, "UVENC", 1, false⟩, ⟨0x25, "OVENC", 1, false⟩, ⟨0x26, "UVDEC", 1, false⟩,
   ⟨0x27, "OVDEC", 1, false⟩, ⟨0x30, "SCDTHR", 2, false⟩, ⟨0x31, "OCDTHR", 2, false⟩, ⟨0x32, "SCDBITS", 2, false⟩,
   ⟨0x33, "OCDBITS", 2, false⟩, ⟨0x34, "RECON", 2, false⟩, ⟨0x35, "PROTCFG", 5, false⟩]

/-! ### Decoding -/

/-- The bytes of the buffer that exist: `IBUF[0..ILEN-1]` (R31, R60). -/
def Request.payload (r : Request) : List Byte := r.ibuf.toList.take r.ilen.toNat

/-- The operation a request selects: the whole byte `OP` is decoded (R62). `none` for each of the 237 reserved opcodes
(R77). Fields the operation does not name are ignored (R30, R60). -/
def decode (r : Request) : Option Instr :=
  match r.op.toNat with
  | 0x00 => some .rdst
  | 0x01 => some (.commit r.a0)
  | 0x10 => some (.crc8 r.payload)
  | 0x11 => some (.wrreg r.a0 r.payload)
  | 0x12 => some (.rdreg r.a0 r.a1)
  | 0x20 => some (.ldcal r.a0 r.a1 r.a2)
  | 0x21 => some (.conv r.a0)
  | 0x22 => some .uvwin
  | 0x23 => some .ovwin
  | 0x24 => some (.uvenc r.a0)
  | 0x25 => some (.ovenc r.a0)
  | 0x26 => some (.uvdec r.a0)
  | 0x27 => some (.ovdec r.a0)
  | 0x30 => some (.scdthr r.a0 r.a1)
  | 0x31 => some (.ocdthr r.a0 r.a1)
  | 0x32 => some (.scdbits r.a0 r.a1)
  | 0x33 => some (.ocdbits r.a0 r.a1)
  | 0x34 => some (.recon r.a0 r.a1)
  | 0x35 => some (.protcfg r.a0 r.a1 r.a2 r.a3 r.a4)
  | _ => none

/-! ### Encoding -/

/-- A buffer placed in `IBUF`; the bytes after it, which nothing reads, are 0. -/
def padBuf (buf : List Byte) : Vector Byte 31 := Vector.ofFn fun i : Fin 31 => buf.getD i.val 0

/-- The request with opcode `op` and every other field 0 (R80: "every unnamed field 0"). -/
def Request.blank (op : Byte) : Request := ⟨op, 0, 0, 0, 0, 0, 0, padBuf []⟩

/-- A request's buffer fields for `buf`. -/
def Request.withBuf (r : Request) (buf : List Byte) : Request :=
  { r with ilen := BitVec.ofNat 5 buf.length, ibuf := padBuf buf }

/-- The request that stands for an operation: its opcode and its named operands (R62), every unnamed field 0 (R80). -/
def encode : Instr → Request
  | .rdst => .blank 0x00
  | .commit shunt => { Request.blank 0x01 with a0 := shunt }
  | .crc8 buf => (Request.blank 0x10).withBuf buf
  | .wrreg reg buf => { (Request.blank 0x11).withBuf buf with a0 := reg }
  | .rdreg reg n => { Request.blank 0x12 with a0 := reg, a1 := n }
  | .ldcal trim1 off trim2 => { Request.blank 0x20 with a0 := trim1, a1 := off, a2 := trim2 }
  | .conv raw => { Request.blank 0x21 with a0 := raw }
  | .uvwin => .blank 0x22
  | .ovwin => .blank 0x23
  | .uvenc target => { Request.blank 0x24 with a0 := target }
  | .ovenc target => { Request.blank 0x25 with a0 := target }
  | .uvdec code => { Request.blank 0x26 with a0 := code }
  | .ovdec code => { Request.blank 0x27 with a0 := code }
  | .scdthr amps shunt => { Request.blank 0x30 with a0 := amps, a1 := shunt }
  | .ocdthr amps shunt => { Request.blank 0x31 with a0 := amps, a1 := shunt }
  | .scdbits thr range => { Request.blank 0x32 with a0 := thr, a1 := range }
  | .ocdbits thr range => { Request.blank 0x33 with a0 := thr, a1 := range }
  | .recon scd ocd => { Request.blank 0x34 with a0 := scd, a1 := ocd }
  | .protcfg scd ocd shunt uv ov => { Request.blank 0x35 with a0 := scd, a1 := ocd, a2 := shunt, a3 := uv, a4 := ov }

/-- The operation the decoder reads from a request whose low `nbits` bits are `w` and whose other bits are 0. -/
def decodeTableWord (nbits w : Nat) : Option Instr :=
  decode (Request.ofBits (BitVec.ofNat 421 (w % 2 ^ nbits)))

end Sys2Proof
end

