-- ==== Sys2Proof/Machine/Tables.lean ====
section
/-! DEFINITION. The threshold tables as lists, their well-formedness (spec/42_threshold.md R141), the default tables
(R142, R143) and the numbers a variant fixes (spec/00_scope.md R10, R12). -/

namespace Sys2Proof

/-- `CHANNELS` (R10, R23). -/
def Variant.channels : Variant → Nat
  | .five => 5
  | .ten => 10
  | .fifteen => 15

/-- `MAX_RD` = 2 × `CHANNELS`: the most payload bytes of one register read (R10). -/
def Variant.maxRd (v : Variant) : Nat := 2 * v.channels

/-- `MAX_WR` = 8: the most payload bytes of one register write, for every variant (R10). -/
def maxWr : Nat := 8

/-- `SCD_BITS` (R11). -/
def scdBits : Nat := 3

/-- `OCD_BITS` (R11). -/
def ocdBits : Nat := 4

/-- The entries of a table in ascending order. -/
def Table.entries (t : Table) : List Entry := t.first :: t.rest

/-- The last entry of a table. -/
def Table.last (t : Table) : Entry := t.rest.getLast?.getD t.first

/-- The Lower codes of a table, in table order. -/
def Table.loCodes (t : Table) : List Nat := t.entries.filterMap Entry.lo

/-- The Upper codes of a table, in table order. -/
def Table.upCodes (t : Table) : List Nat := t.entries.filterMap Entry.up

/-- A table with `k`-bit codes is well-formed (R141): `mv` strictly ascending (W1, whose other half the type gives), every
entry in some range (W2), codes of `k` bits (W3), no code twice in a range (W4), both ranges present (W5). -/
abbrev Table.wf (k : Nat) (t : Table) : Prop :=
  t.entries.Pairwise (fun a b => a.mv.toNat < b.mv.toNat) ∧
  (∀ e ∈ t.entries, e.lo ≠ none ∨ e.up ≠ none) ∧
  (∀ c ∈ t.loCodes, c < 2 ^ k) ∧ (∀ c ∈ t.upCodes, c < 2 ^ k) ∧
  t.loCodes.Nodup ∧ t.upCodes.Nodup ∧ t.loCodes ≠ [] ∧ t.upCodes ≠ []

/-- The premise on a configuration under which the rules of spec/42_threshold.md are claimed (R141, U17). -/
abbrev Config.wf (c : Config) : Prop := c.tblScd.wf scdBits ∧ c.tblOcd.wf ocdBits

/-- The default `TBL_SCD` (R142; PRESUMED there from general knowledge, log 17). -/
def defaultTblScd : Table where
  first := ⟨22, some 0, none⟩
  rest :=
    [⟨33, some 1, none⟩, ⟨44, some 2, some 0⟩, ⟨56, some 3, none⟩, ⟨67, some 4, some 1⟩, ⟨78, some 5, none⟩,
     ⟨89, some 6, some 2⟩, ⟨100, some 7, none⟩, ⟨111, none, some 3⟩, ⟨133, none, some 4⟩, ⟨155, none, some 5⟩,
     ⟨178, none, some 6⟩, ⟨200, none, some 7⟩]

/-- The default `TBL_OCD` (R143; PRESUMED there from general knowledge, log 17). -/
def defaultTblOcd : Table where
  first := ⟨8, some 0, none⟩
  rest :=
    [⟨11, some 1, none⟩, ⟨14, some 2, none⟩, ⟨17, some 3, some 0⟩, ⟨19, some 4, none⟩, ⟨22, some 5, some 1⟩,
     ⟨25, some 6, none⟩, ⟨28, some 7, some 2⟩, ⟨31, some 8, none⟩, ⟨33, some 9, some 3⟩, ⟨36, some 10, none⟩,
     ⟨39, some 11, some 4⟩, ⟨42, some 12, none⟩, ⟨44, some 13, some 5⟩, ⟨47, some 14, none⟩, ⟨50, some 15, some 6⟩,
     ⟨56, none, some 7⟩, ⟨61, none, some 8⟩, ⟨67, none, some 9⟩, ⟨72, none, some 10⟩, ⟨78, none, some 11⟩,
     ⟨83, none, some 12⟩, ⟨89, none, some 13⟩, ⟨94, none, some 14⟩, ⟨100, none, some 15⟩]

/-- The configuration of the spec's test vectors (spec/95_test_vectors.md, Conventions): the one `State.reset` is given
(log 1; DESIGN CHOICE, unsafe: the spec leaves every one of these to whoever builds the block). -/
def Config.testVector : Config where
  devAddr   := 0x08
  crcEn     := true
  variant   := .five
  tblScd    := defaultTblScd
  tblOcd    := defaultTblOcd
  crcInit   := 0x00
  crcXorOut := 0x00
  tSettle   := 0

end Sys2Proof
end

