-- ==== Sys2Proof/Machine/State.lean ====
section
/-! DEFINITION. The state of the block (spec/10_state.md), the events of its ports (spec/20_memory.md R44 to R47,
spec/30_encoding.md R60, R61), the reasons a step can stop, and the state after reset (R39, R210). -/

namespace Sys2Proof.Machine

/-- `STATUS` (R35, R185): exactly nine values; 9 to 15 are never produced (R76, U5). -/
inductive Status where
  | ok
  | eCrc
  | eBus
  | eTooLarge
  | eUninit
  | eVerify
  | eRange
  | eUnobtainable
  | eInvariant
deriving DecidableEq, Repr

/-- An error with the information it carries (R185). -/
inductive ErrorCause where
  /-- `E_CRC` (R186). -/
  | crc
  /-- `E_BUS` (R187). -/
  | bus
  /-- `E_TOOLARGE` (R188). -/
  | tooLarge
  /-- `E_UNINIT` (R189). -/
  | uninit
  /-- `E_VERIFY`, with the register address: raised by no operation, reserved for a sequencer around the block (R190). -/
  | verify (reg : Word)
  /-- `E_RANGE` (R191). -/
  | range
  /-- `E_UNOBTAINABLE`, with the window that was violated and whether it is the over-voltage one (R192, R36). -/
  | unobtainable (min max : Word) (ov : Bool)
  /-- `E_INVARIANT` (R193). -/
  | invariant
deriving DecidableEq, Repr

/-- The result registers `R0`..`R8` (R32); a register not named is 0. -/
structure Results where
  r0 : Word := 0
  r1 : Word := 0
  r2 : Word := 0
  r3 : Word := 0
  r4 : Word := 0
  r5 : Word := 0
  r6 : Word := 0
  r7 : Word := 0
  r8 : Word := 0
deriving DecidableEq, Repr

/-- The response record, which is the result state (R61): `STATUS`, `ERR0`..`ERR2`, `R0`..`R8`, `OBUF`. `OLEN` is the length
of `obuf`: a byte at an index not below `OLEN` does not exist (R33). -/
structure Response where
  status : Status
  err0   : Word
  err1   : Word
  err2   : Word
  r      : Results
  obuf   : List Byte
deriving DecidableEq, Repr

/-- A call of one of the transport's two primitives (R44 to R46). -/
inductive BusCall where
  /-- `BusWrite(a7, bytes)` (R45). -/
  | write (a7 : BusAddr) (bytes : List Byte)
  /-- `BusWriteRead(a7, query, n)` (R46). -/
  | writeRead (a7 : BusAddr) (query : List Byte) (n : Nat)
deriving DecidableEq, Repr

/-- A transport call as the trace records it, with the settling delay waited before it (R219). -/
structure Transaction where
  settle : Nat
  call   : BusCall
deriving DecidableEq, Repr

/-- What the transport answers (R45 to R47). `silent` stands for a transport that never answers (R179, U11). -/
inductive BusAnswer where
  | ok (bytes : List Byte)
  | fail
  | silent
deriving DecidableEq, Repr

/-- A device register space (R40): the registers that differ from 0, by rising address. -/
abbrev Memory := List Host.Cell

/-- The reference loopback device (spec/95_test_vectors.md 4.1, D31): a fixture of the spec, not the bq769x0. -/
structure Loopback where
  addr     : BusAddr
  crcMode  : Bool
  mem      : Memory
  failNext : Bool
  corrupt  : Option (Nat × Byte)
deriving DecidableEq, Repr

/-- The agent behind the transport port: answers given in advance, after which every answer is a free value (R47, U9), or
the loopback device. -/
inductive Transport where
  | oracle (answers : List BusAnswer)
  | loopback (d : Loopback)
deriving DecidableEq, Repr

/-- What the host does to the block (R34, R56, R210). -/
inductive HostEvent where
  /-- A request, issued once the previous one has answered. -/
  | request (r : Request)
  /-- A reset between operations. -/
  | reset
  /-- A reset during the operation `r` requests; `called` says whether its transport call was already under way. -/
  | resetDuring (r : Request) (called : Bool)
deriving DecidableEq, Repr

/-- The state of the machine. `cfg` to `resp` are the spec's (R20); `inbox`, `transport` and `trace` are its ports, and
`free` numbers free values (log 2, log 3, log 6, log 8). -/
structure State where
  /-- Configuration (R20 (a)). -/
  cfg       : Config
  /-- `GAIN` (R24). -/
  gain      : BitVec 16
  /-- `OFFSET` (R25), two's complement. -/
  offset    : BitVec 8
  /-- `CALV` (R26). -/
  calv      : Bool
  /-- `SHUNT` (R27). -/
  shunt     : Word
  /-- `INIT` (R28). -/
  init      : Bool
  /-- `CRCACC` (R37). -/
  crcacc    : Byte
  /-- `STATUS`, `ERR0`..`ERR2`, `R0`..`R8`, `OBUF`, `OLEN` (R32, R33, R35, R36, R61). -/
  resp      : Response
  /-- Host events not yet taken, oldest first (R52). -/
  inbox     : List HostEvent
  /-- The agent that answers transport calls (R44). -/
  transport : Transport
  /-- Transport calls made, oldest first (R52). -/
  trace     : List Transaction
  /-- How many free values have been drawn. -/
  free      : Nat
deriving DecidableEq, Repr

/-- Why the machine stops. -/
inductive Fault where
  /-- The transport never answers the call of a `WRREG` or an `RDREG`, so the operation never ends (R179, U11 "stuck").
  Raised by these two operations only, and only when the script says so. Safe: nothing is claimed past this point. -/
  | transportSilent
deriving DecidableEq, Repr

/-- Why an instruction has no meaning. -/
inductive Refusal where
  /-- The instruction has no meaning in this model yet; raised by `exec`'s own arm only. Safe. No arm raises it. -/
  | notModelled (mnemonic : String)
deriving DecidableEq, Repr

/-- The result state after reset (R39): `OK`, everything else 0. -/
def Response.idle : Response := ⟨.ok, 0, 0, 0, {}, []⟩

/-- The state right after a first reset of a block built with configuration `c` (R39, R210). `GAIN`, `OFFSET`, `SHUNT` and
`CRCACC` are unspecified: free values (log 2). -/
def State.resetFor (c : Config) : State where
  cfg       := c
  gain      := Config.gainAfterReset 0
  offset    := Config.offsetAfterReset 0
  calv      := false
  shunt     := Config.shuntAfterReset 0
  init      := false
  crcacc    := Config.crcaccAfterReset 0
  resp      := .idle
  inbox     := []
  transport := .oracle []
  trace     := []
  free      := 1

/-- The machine right after reset, with the configuration of the spec's test vectors (log 1). -/
def State.reset : State := .resetFor .testVector

end Sys2Proof.Machine
end

