-- ==== Sys2Proof/Machine/Flags.lean ====
section
/-! DEFINITION. The flags of the block: `CALV` and `INIT` with the test an operation makes of them (spec/10_state.md R26, R28,
spec/60_exceptions.md R189), the flags word of `RDST` (spec/43_control.md R171), and the numbers of `STATUS` (R185). There are
no carry, zero, sign or overflow flags (R35). -/

namespace Sys2Proof.Machine

/-- The number of a status (R185). -/
def Status.code : Status → BitVec 4
  | .ok => 0
  | .eCrc => 1
  | .eBus => 2
  | .eTooLarge => 3
  | .eUninit => 4
  | .eVerify => 5
  | .eRange => 6
  | .eUnobtainable => 7
  | .eInvariant => 8

/-- `OLEN` (R33). -/
def Response.olen (r : Response) : BitVec 5 := BitVec.ofNat 5 r.obuf.length

/-- What an operation that needs a flag delivers: `E_UNINIT` while the flag is 0 (R189). -/
def needFlag {α : Type} (flag : Bool) (result : Except ErrorCause α) : Except ErrorCause α :=
  if flag then result else .error .uninit

/-- One flag bit. -/
def flagBit (b : Bool) : BitVec 1 := BitVec.ofBool b

/-- `zext_32({CRC_EN, INIT, CALV})`: bit 0 `CALV`, bit 1 `INIT`, bit 2 `CRC_EN` (R171). -/
def flagsWord (s : State) : Word := (flagBit s.cfg.crcEn ++ flagBit s.init ++ flagBit s.calv).setWidth 32

end Sys2Proof.Machine
end

