-- ==== Sys2Proof/Machine/Crc.lean ====
section
/-! DEFINITION. The CRC-8 of the FRM unit (spec/40_framer.md R90 to R92). -/

namespace Sys2Proof.Machine

/-- `CRC_POLY` = x⁸+x²+x+1 with the x⁸ term implicit (R7, R90). -/
def crcPoly : Byte := 0x07

/-- One iteration of the loop of R91: shift left, and reduce when a 1 left at the top. -/
def crcShift (x : Byte) : Byte :=
  if x.msb then (x <<< 1) ^^^ crcPoly else x <<< 1

/-- `crc_step(acc, b)`: eight iterations, most significant bit first (R91). -/
def crcStep (acc b : Byte) : Byte := crcShift^[8] (acc ^^^ b)

/-- The accumulator at the end of a byte-group that starts from `start` (R37, R92). -/
def crcAcc (start : Byte) (group : List Byte) : Byte := group.foldl crcStep start

/-- `crc8` of a byte-group: from `CRC_INIT`, with the final XOR by `CRC_XOROUT` (R92). -/
def crc8 (cfg : Config) (group : List Byte) : Byte := crcAcc cfg.crcInit group ^^^ cfg.crcXorOut

end Sys2Proof.Machine
end

