-- ==== Sys2Proof/Machine/Operands.lean ====
section
/-! DEFINITION. Operand forms: integer division (spec/00_scope.md R16), legal ranges of operands (spec/30_encoding.md R78),
the encoding of `Range` (R18, R75), and how values enter a 32-bit register (spec/10_state.md R32). -/

namespace Sys2Proof.Machine

/-- `floor_div(a, b)`, for `b > 0` (R16). -/
def floorDiv (a b : Nat) : Nat := a / b

/-- `trunc_div(a, b)`, for `b > 0`: toward zero (R16, R175). -/
def truncDiv (a : Int) (b : Nat) : Int :=
  if 0 ≤ a then (floorDiv a.toNat b : Int) else -(floorDiv (-a).toNat b : Int)

/-- A byte operand: 0..0xFF (R78: `reg`, `trim1`, offset byte, `trim2`, `code`). -/
def isByte (w : Word) : Bool := decide (w.toNat ≤ 0xFF)

/-- A raw code: 0..0x3FFF (R12 `RAW_BITS`, R78). -/
def isRaw (w : Word) : Bool := decide (w.toNat ≤ 0x3FFF)

/-- The low byte of an operand that passed `isByte`: `A[i][7:0]`. -/
def lowByte (w : Word) : Byte := w.setWidth 8

/-- A signed value in a 32-bit register: two's complement (R32). -/
def signedWord (x : Int) : Word := BitVec.ofInt 32 x

/-- An unsigned value in a 32-bit register: zero-extended (R32). -/
def unsignedWord (x : Nat) : Word := BitVec.ofNat 32 x

/-- `encode_range` (R18, R75). -/
def encodeRange : Range → Word
  | .lower => 0
  | .upper => 1
  | .unknown => 2

/-- `decode_range`: `none` for the reserved values 3 and above (R18, R78). -/
def decodeRange (w : Word) : Option Range :=
  match w.toNat with
  | 0 => some .lower
  | 1 => some .upper
  | 2 => some .unknown
  | _ => none

/-- A range to encode for: `Lower` or `Upper`; `Unknown` and the reserved values are refused (R78, R152, R153). -/
def decodeResolvedRange (w : Word) : Option Range :=
  match w.toNat with
  | 0 => some .lower
  | 1 => some .upper
  | _ => none

end Sys2Proof.Machine
end

