-- ==== Sys2Proof/Machine/Framing.lean ====
section
/-! DEFINITION. The pure functions of the framer: which bytes each CRC covers, the write frame, and the verification of a read
response (spec/40_framer.md R94 to R98, spec/30_encoding.md R63 to R68). -/

namespace Sys2Proof.Machine

/-- `{DEV_ADDR, 0}`: the address byte of a write (R68). -/
def addrW (a : BusAddr) : Byte := a ++ (0 : BitVec 1)

/-- `{DEV_ADDR, 1}`: the address byte of a read (R68). -/
def addrR (a : BusAddr) : Byte := a ++ (1 : BitVec 1)

/-- The pairs of a sequence of (byte, CRC) pairs; `none` for an odd count. -/
def pairsOf : List Byte → Option (List (Byte × Byte))
  | [] => some []
  | [_] => none
  | x :: k :: t => (pairsOf t).map fun ps => (x, k) :: ps

/-- The byte-groups the CRCs of a write cover: the first also the address byte and the register address (R94, R95). -/
def writeGroups (a : BusAddr) (reg : Byte) : List Byte → List (List Byte)
  | [] => []
  | d0 :: d => [addrW a, reg, d0] :: d.map fun x => [x]

/-- The byte-groups the CRCs of a read cover: the first also the address byte, none the register address (R97). -/
def readGroups (a : BusAddr) : List Byte → List (List Byte)
  | [] => []
  | v0 :: v => [addrR a, v0] :: v.map fun x => [x]

/-- Every byte of `xs` followed by the one of `ys` at the same place: `[x0, y0, x1, y1, ...]`. -/
def interleave (xs ys : List Byte) : List Byte := (xs.zip ys).flatMap fun p => [p.1, p.2]

/-- `frame_w(reg, d)`: with CRC bytes in checksum mode, without in plain mode (R63, R64, R96). -/
def frameW (cfg : Config) (reg : Byte) (d : List Byte) : List Byte :=
  if cfg.crcEn then reg :: interleave d ((writeGroups cfg.devAddr reg d).map (crc8 cfg)) else reg :: d

/-- `check_r(buf, n)` on the (value, CRC) pairs of a response: all values when every CRC is the expected one, else nothing
(R98). -/
def checkPairs (cfg : Config) (ps : List (Byte × Byte)) : Option (List Byte) :=
  if ps.map Prod.snd = (readGroups cfg.devAddr (ps.map Prod.fst)).map (crc8 cfg) then some (ps.map Prod.fst) else none

/-- `check_r(buf, n)` (R98): `buf` holds `2n` bytes, so it is `n` pairs. -/
def checkR (cfg : Config) (buf : List Byte) : Option (List Byte) := (pairsOf buf).bind (checkPairs cfg)

end Sys2Proof.Machine
end

