-- ==== Sys2Proof/Machine/Memory.lean ====
section
/-! DEFINITION. A device register space (spec/20_memory.md R40): 256 registers of one byte, held as the list of those that
differ from what an unlisted register reads as. -/

namespace Sys2Proof.Machine

/-- The number of register addresses: 8 bits (R40). -/
def regSpace : Nat := 256

/-- What an unlisted register of the loopback device reads as: the programs of spec/95_test_vectors.md start from "every
other register 0x00" (log 12). -/
def Memory.blank : Byte := 0x00

/-- The canonical form: addresses strictly rising and inside the register space, no listed register blank. -/
def Memory.wf : Memory → Bool
  | [] => true
  | [c] => decide (c.1 < regSpace ∧ c.2 ≠ Memory.blank)
  | c :: d :: m => decide (c.1 < d.1 ∧ c.2 ≠ Memory.blank) && Memory.wf (d :: m)

/-- The register at address `a`. -/
def Memory.read : Memory → Nat → Byte
  | [], _ => Memory.blank
  | c :: m, a => if c.1 = a then c.2 else Memory.read m a

/-- Store `b` at address `a`, keeping the canonical form. -/
def Memory.write : Memory → Nat → Byte → Memory
  | [], a, b => if b = Memory.blank then [] else [(a, b)]
  | c :: m, a, b =>
    if a < c.1 then (if b = Memory.blank then c :: m else (a, b) :: c :: m)
    else if a = c.1 then (if b = Memory.blank then m else (a, b) :: m)
    else c :: Memory.write m a b

/-- The address of payload byte `i` of a transaction that starts at `reg`, modulo the register space (spec/95_test_vectors.md
4.1: a choice of the fixture). -/
def regAddr (reg : Byte) (i : Nat) : Nat := (reg.toNat + i) % regSpace

/-- Store the bytes `d` at the consecutive registers from `reg` (R43). -/
def Memory.writeBytes (m : Memory) (reg : Byte) : Nat → List Byte → Memory
  | _, [] => m
  | i, b :: d => Memory.writeBytes (m.write (regAddr reg i) b) reg (i + 1) d

/-- The `n` bytes of the consecutive registers from `reg` (R43). -/
def Memory.readBytes (m : Memory) (reg : Byte) (n : Nat) : List Byte :=
  (List.range n).map fun i => m.read (regAddr reg i)

end Sys2Proof.Machine
end

