-- ==== Sys2Proof/Machine/Loopback.lean ====
section
/-! DEFINITION. The reference loopback device (spec/95_test_vectors.md section 4.1, spec/92_eei_decisions.md D31): the
simplest transport under which a write followed by a read gives back what was written (spec/40_framer.md R104). It is a fixture
of the spec and no description of the bq769x0 (log 12). -/

namespace Sys2Proof.Machine

/-- The fixture's `BusWrite`. In checksum mode a frame that is not the register address and whole pairs, which only a block in plain
mode sends, is taken as one with a wrong CRC: `ok`, and the write is ignored (log 12, DESIGN CHOICE: the fixture asks for an odd
length; R221: the block cannot detect the mismatch on a write). -/
def Loopback.busWrite (cfg : Config) (d : Loopback) (a7 : BusAddr) (frame : List Byte) : BusAnswer × Loopback :=
  if d.failNext then (.fail, { d with failNext := false })
  else if a7 ≠ d.addr then (.fail, d)
  else
    match frame with
    | [] => (.silent, d)
    | reg :: body =>
      if d.crcMode then
        match pairsOf body with
        | none => (.ok [], d)
        | some ps =>
          if ps.map Prod.snd = (writeGroups d.addr reg (ps.map Prod.fst)).map (crc8 cfg) then
            (.ok [], { d with mem := d.mem.writeBytes reg 0 (ps.map Prod.fst) })
          else (.ok [], d)
      else (.ok [], { d with mem := d.mem.writeBytes reg 0 body })

/-- The armed one-shot corruption applied to a response: byte `i` XOR `x`. Where the response has no byte `i`, which the fixture does
not speak of, no byte changes, and `busWriteRead` disarms the corruption all the same (log 12, DESIGN CHOICE). -/
def Loopback.corrupted (d : Loopback) (out : List Byte) : List Byte :=
  match d.corrupt with
  | none => out
  | some (i, x) => out.set i (out.getD i 0 ^^^ x)

/-- The fixture's response to a read of `n` bytes at `reg`, before corruption. -/
def Loopback.readOut (cfg : Config) (d : Loopback) (reg : Byte) (n : Nat) : List Byte :=
  if d.crcMode then
    let v := d.mem.readBytes reg (n / 2)
    interleave v ((readGroups d.addr v).map (crc8 cfg))
  else d.mem.readBytes reg n

/-- The fixture's `BusWriteRead`. -/
def Loopback.busWriteRead (cfg : Config) (d : Loopback) (a7 : BusAddr) (query : List Byte) (n : Nat) :
    BusAnswer × Loopback :=
  if d.failNext then (.fail, { d with failNext := false })
  else if a7 ≠ d.addr then (.fail, d)
  else
    match query with
    | [reg] => (.ok (d.corrupted (d.readOut cfg reg n)), { d with corrupt := none })
    | _ => (.silent, d)

/-- The fixture's answer to a call. -/
def Loopback.answer (cfg : Config) (d : Loopback) : BusCall → BusAnswer × Loopback
  | .write a7 bytes => d.busWrite cfg a7 bytes
  | .writeRead a7 query n => d.busWriteRead cfg a7 query n

end Sys2Proof.Machine
end

