-- ==== Sys2Proof/Machine/Ops.lean ====
section
/-! DEFINITION. The shared operations: writing the result state, raising an error (spec/60_exceptions.md R195, the block's
exception entry), writing the persistent registers, calling the transport (spec/20_memory.md R44 to R47), and reset
(spec/70_reset_and_hazards.md R210). There is no return from an error and nothing to return from (R197). -/

namespace Sys2Proof.Machine

/-! ### The result state -/

/-- The response of an operation that ends `OK` with results `r`: no error information, no output bytes (R32, R33, R36). -/
def okResponse (r : Results) : Response := ⟨.ok, 0, 0, 0, r, []⟩

/-- The response of an `RDREG` that ends `OK` with the payload bytes `v` (R33, R101). -/
def okBytes (v : List Byte) : Response := ⟨.ok, 0, 0, 0, {}, v⟩

/-- The response of an operation that ends in an error: `STATUS`, the error information or 0, results and `OLEN` cleared
(R36, R185, R195). -/
def errorResponse : ErrorCause → Response
  | .crc => ⟨.eCrc, 0, 0, 0, {}, []⟩
  | .bus => ⟨.eBus, 0, 0, 0, {}, []⟩
  | .tooLarge => ⟨.eTooLarge, 0, 0, 0, {}, []⟩
  | .uninit => ⟨.eUninit, 0, 0, 0, {}, []⟩
  | .verify reg => ⟨.eVerify, reg, 0, 0, {}, []⟩
  | .range => ⟨.eRange, 0, 0, 0, {}, []⟩
  | .unobtainable min max ov => ⟨.eUnobtainable, min, max, if ov then 1 else 0, {}, []⟩
  | .invariant => ⟨.eInvariant, 0, 0, 0, {}, []⟩

/-- End an operation `OK` with results `r`: the result state is overwritten as a whole (R20 (c), R32). -/
def respond (r : Results) (s : State) : State := { s with resp := okResponse r }

/-- End an `RDREG` `OK` with payload bytes `v`. -/
def respondBytes (v : List Byte) (s : State) : State := { s with resp := okBytes v }

/-- `raise E_x(info)`: the result state takes the error's response, and nothing else happens (R195). -/
def raise (e : ErrorCause) (s : State) : State := { s with resp := errorResponse e }

/-- The response of an operation that computes results or finds an error. -/
def responseOf : Except ErrorCause Results → Response
  | .ok r => okResponse r
  | .error e => errorResponse e

/-- End an operation that computes results or finds an error, and does nothing else. -/
def finish (result : Except ErrorCause Results) (s : State) : State := { s with resp := responseOf result }

/-! ### The persistent registers -/

/-- `GAIN <- g ; OFFSET <- o ; CALV <- 1` (R121). -/
def loadCal (g : BitVec 16) (o : BitVec 8) (s : State) : State := { s with gain := g, offset := o, calv := true }

/-- `SHUNT <- w ; INIT <- 1` (R172). -/
def commitShunt (w : Word) (s : State) : State := { s with shunt := w, init := true }

/-! ### The CRC accumulator -/

/-- What the computation of byte-groups leaves in `CRCACC`: of one group, its last accumulator (R37); of several, in an order
the spec does not fix, a free value (R98; log 9). -/
def noteGroups (groups : List (List Byte)) (s : State) : State :=
  match groups with
  | [] => s
  | [g] => { s with crcacc := crcAcc s.cfg.crcInit g }
  | _ :: _ :: _ => { s with crcacc := Config.crcaccAfterGroups s.free, free := s.free + 1 }

/-! ### The transport port -/

/-- Exactly `n` response bytes (R46, D29): a byte the answer does not give is a free value (log 6). -/
def fillTo (n k : Nat) (bytes : List Byte) : List Byte :=
  (List.range n).map fun i => bytes.getD i (Config.freeResponseByte k i)

/-- An answer in the form the call's contract gives it: no bytes for a write (R45), exactly `n` for a read (R46). -/
def shapeAnswer (c : BusCall) (k : Nat) : BusAnswer → BusAnswer
  | .fail => .fail
  | .silent => .silent
  | .ok bytes =>
    match c with
    | .write _ _ => .ok []
    | .writeRead _ _ n => .ok (fillTo n k bytes)

/-- An answer no script gives: `ok` or `fail`, each byte free (R47, U9; log 6). -/
def freeAnswer (k : Nat) : BusAnswer := if Config.freeCallSucceeds k then .ok [] else .fail

/-- The answer of the agent behind the port to call number `k`, and the agent afterwards. -/
def Transport.reply (cfg : Config) (k : Nat) (c : BusCall) : Transport → BusAnswer × Transport
  | .oracle [] => (shapeAnswer c k (freeAnswer k), .oracle [])
  | .oracle (a :: rest) => (shapeAnswer c k a, .oracle rest)
  | .loopback d => (shapeAnswer c k (d.answer cfg c).1, .loopback (d.answer cfg c).2)

/-- What the transport answers when `c` is called in state `s`. -/
def busAnswer (c : BusCall) (s : State) : BusAnswer := (s.transport.reply s.cfg s.free c).1

/-- The state once the call `c` has been made: the settling delay was waited (R219) and the call is on the trace, the agent
has moved on. -/
def afterCall (c : BusCall) (s : State) : State :=
  { s with
    transport := (s.transport.reply s.cfg s.free c).2
    trace := s.trace ++ [⟨s.cfg.tSettle, c⟩]
    free := s.free + 1 }

/-! ### Requests and reset -/

/-- A reserved opcode: nothing is performed, `E_INVARIANT` (R77, R193 (a)). -/
def rejectOpcode (s : State) : State := raise .invariant s

/-- The state when no request stands on the port: the block waits (R210). -/
def idle (s : State) : State := s

/-- The host event at the head of the inbox has been taken. -/
def takeEvent (rest : List HostEvent) (s : State) : State := { s with inbox := rest }

/-- Reset (R39, R210): configuration unchanged, flags and result state 0, the other registers unspecified; no transport call
is made and the device keeps its registers (R211). -/
def applyReset (s : State) : State :=
  { s with
    gain := Config.gainAfterReset s.free
    offset := Config.offsetAfterReset s.free
    calv := false
    shunt := Config.shuntAfterReset s.free
    init := false
    crcacc := Config.crcaccAfterReset s.free
    resp := .idle
    free := s.free + 1 }

end Sys2Proof.Machine
end

