-- ==== Sys2Proof/Machine/Control.lean ====
section
/-! DEFINITION. The control operations `RDST` and `COMMIT` (spec/43_control.md R170 to R172). -/

namespace Sys2Proof.Machine

/-- What `RDST` delivers (R171): the guarded registers read as 0 while their flag is 0. -/
def rdstResults (s : State) : Results where
  r0 := if s.calv then s.gain.setWidth 32 else 0
  r1 := if s.calv then s.offset.signExtend 32 else 0
  r2 := if s.init then s.shunt else 0
  r3 := flagsWord s
  r4 := s.cfg.devAddr.setWidth 32
  r5 := unsignedWord s.cfg.variant.channels

/-- `RDST` (R171). -/
def execRdst (s : State) : Host.Outcome State Fault Refusal := .next (respond (rdstResults s) s)

/-- `COMMIT` (R172): needs `CALV` = 1. -/
def execCommit (shunt : Word) (s : State) : Host.Outcome State Fault Refusal :=
  if s.calv then .next (respond {} (commitShunt shunt s)) else .next (raise .uninit s)

end Sys2Proof.Machine
end

