-- ==== Sys2Proof/Machine/Framer.lean ====
section
/-! DEFINITION. The framer operations `CRC8`, `WRREG` and `RDREG` (spec/40_framer.md R99 to R102). -/

namespace Sys2Proof.Machine

/-- `CRC8` (R99): the primitive of R92 on `IBUF[0..ILEN-1]`. -/
def execCrc8 (buf : List Byte) (s : State) : Host.Outcome State Fault Refusal :=
  .next (respond { r0 := (crc8 s.cfg buf).setWidth 32 } (noteGroups [buf] s))

/-- The tests of `WRREG` before its transport call, in the order of R100: the call it makes, none for length 0. -/
def wrregCall (cfg : Config) (reg : Word) (d : List Byte) : Except ErrorCause (Option BusCall) :=
  if ¬ isByte reg then .error .invariant
  else if d.length = 0 then .ok none
  else if maxWr < d.length then .error .tooLarge
  else .ok (some (.write cfg.devAddr (frameW cfg (lowByte reg) d)))

/-- The state once the CRCs of a `WRREG` frame have been computed; plain mode computes none (R96). -/
def afterWriteCrcs (reg : Word) (d : List Byte) (s : State) : State :=
  if s.cfg.crcEn then noteGroups (writeGroups s.cfg.devAddr (lowByte reg) d) s else s

/-- The state once a `WRREG` has made its call `c`. -/
def afterWrite (reg : Word) (d : List Byte) (c : BusCall) (s : State) : State := afterWriteCrcs reg d (afterCall c s)

/-- `WRREG` (R100): one call of `BusWrite`, whose failure is `E_BUS`. -/
def execWrreg (reg : Word) (buf : List Byte) (s : State) : Host.Outcome State Fault Refusal :=
  match wrregCall s.cfg reg buf with
  | .error e => .next (raise e s)
  | .ok none => .next (respond {} s)
  | .ok (some c) =>
    match busAnswer c s with
    | .silent => .fault .transportSilent
    | .fail => .next (raise .bus (afterWrite reg buf c s))
    | .ok _ => .next (respond {} (afterWrite reg buf c s))

/-- The size of the response buffer for `n` payload bytes (R65, R66). -/
def responseSize (cfg : Config) (n : Nat) : Nat := if cfg.crcEn then 2 * n else n

/-- The tests of `RDREG` before its transport call, in the order of R101: the call it makes, none for length 0. The query is
the register address alone (R65). -/
def rdregCall (cfg : Config) (reg n : Word) : Except ErrorCause (Option BusCall) :=
  if ¬ isByte reg then .error .invariant
  else if n.toNat = 0 then .ok none
  else if cfg.variant.maxRd < n.toNat then .error .tooLarge
  else .ok (some (.writeRead cfg.devAddr [lowByte reg] (responseSize cfg n.toNat)))

/-- The byte-groups `RDREG` checks in a response; plain mode checks none (R101). -/
def checkedGroups (cfg : Config) (bytes : List Byte) : List (List Byte) :=
  if cfg.crcEn then readGroups cfg.devAddr (((pairsOf bytes).getD []).map Prod.fst) else []

/-- The payload of a response: verified in checksum mode (R98), as it came in plain mode (R101). -/
def payloadOf (cfg : Config) (bytes : List Byte) : Option (List Byte) :=
  if cfg.crcEn then checkR cfg bytes else some bytes

/-- `RDREG` after its response has come (R101): all verified bytes or `E_CRC` and none. -/
def deliver (bytes : List Byte) (s : State) : State :=
  match payloadOf s.cfg bytes with
  | some v => respondBytes v (noteGroups (checkedGroups s.cfg bytes) s)
  | none => raise .crc (noteGroups (checkedGroups s.cfg bytes) s)

/-- `RDREG` (R101): one call of `BusWriteRead`; its failure is `E_BUS`, a mismatch in its response `E_CRC`. -/
def execRdreg (reg n : Word) (s : State) : Host.Outcome State Fault Refusal :=
  match rdregCall s.cfg reg n with
  | .error e => .next (raise e s)
  | .ok none => .next (respondBytes [] s)
  | .ok (some c) =>
    match busAnswer c s with
    | .silent => .fault .transportSilent
    | .fail => .next (raise .bus (afterCall c s))
    | .ok bytes => .next (deliver bytes (afterCall c s))

end Sys2Proof.Machine
end

