-- ==== Sys2Proof/Machine/Scaler.lean ====
section
/-! DEFINITION. The scaler: calibration, transfer function, windows, trip codes, and the operations `LDCAL`, `CONV`, `UVWIN`,
`OVWIN`, `UVENC`, `OVENC`, `UVDEC`, `OVDEC` (spec/41_scaler.md R110 to R129). -/

namespace Sys2Proof.Machine

/-! ### The pure functions -/

/-- `GAIN_BASE`, in microvolts per LSB (R12). -/
def gainBase : Nat := 365

/-- `UV_LO` (R12). -/
def uvLo : Nat := 0x1000

/-- `UV_HI` (R12). -/
def uvHi : Nat := 0x1FF0

/-- `OV_LO` (R12). -/
def ovLo : Nat := 0x2008

/-- `OV_HI` (R12). -/
def ovHi : Nat := 0x2FF8

/-- `G5` of R111, with its grouping of the operators (D15, C4). -/
def gainTrim (trim1 trim2 : Word) : Word := ((trim1 <<< 1) &&& 0x18) ||| (trim2 >>> 5)

/-- The gain `cal` gives (R69, R111). -/
def calGain (trim1 trim2 : Word) : BitVec 16 := BitVec.ofNat 16 (gainBase + (gainTrim trim1 trim2).toNat)

/-- The offset `cal` gives: the byte taken as signed (R70, R111). -/
def calOffset (ob : Word) : BitVec 8 := lowByte ob

/-- `xfer(g, o, raw)`: exact microvolts, truncated toward zero to millivolts (R112). -/
def xfer (g : Nat) (o : Int) (raw : Nat) : Int := truncDiv ((raw : Int) * g + o * 1000) 1000

/-- `uv_raw(c)` (R71, R114). -/
def uvRaw (c : Nat) : Nat := uvLo ||| (c <<< 4)

/-- `ov_raw(c)` (R71, R114). -/
def ovRaw (c : Nat) : Nat := ovLo ||| (c <<< 4)

/-- `q` of R116 and R117: the raw code a target corresponds to. -/
def rawOfTarget (g : Nat) (o : Int) (t : Nat) : Int := truncDiv (((t : Int) - o) * 1000) g

/-- `q[11:4]` (R72). The shift is of a non-negative `q` for every target inside a window (R116, R177; log 14). -/
def codeOfRaw (q : Int) : Nat := (q.toNat >>> 4) &&& 0xFF

/-- `uv_encode(g, o, t)` (R116). -/
def uvEncode (g : Nat) (o : Int) (t : Nat) : Nat := codeOfRaw (rawOfTarget g o t)

/-- `ov_encode(g, o, t)` (R117). -/
def ovEncode (g : Nat) (o : Int) (t : Nat) : Nat := codeOfRaw (rawOfTarget g o t)

/-- `uv_decode(g, o, c)`: the achieved value (R118). -/
def uvDecode (g : Nat) (o : Int) (c : Nat) : Int := xfer g o (uvRaw c)

/-- `ov_decode(g, o, c)`: the achieved value (R118). -/
def ovDecode (g : Nat) (o : Int) (c : Nat) : Int := xfer g o (ovRaw c)

/-- A target inside a window, both ends included (R115, D13, R178). -/
def insideWindow (lo hi : Int) (t : Word) : Bool := decide (lo ≤ (t.toNat : Int) ∧ (t.toNat : Int) ≤ hi)

/-! ### The calibration a state holds -/

/-- `GAIN` as a number. -/
def gainOf (s : State) : Nat := s.gain.toNat

/-- `OFFSET` as a signed number. -/
def offsetOf (s : State) : Int := s.offset.toInt

/-- `xfer(GAIN, OFFSET, raw)`. -/
def millivolts (s : State) (raw : Nat) : Int := xfer (gainOf s) (offsetOf s) raw

/-- A UV target checked and encoded: its code and the achieved value, or the window it misses (R126, R155 step 3). -/
def encodeUv (s : State) (t : Word) : Except ErrorCause (Nat × Int) :=
  if insideWindow (millivolts s uvLo) (millivolts s uvHi) t then
    .ok (uvEncode (gainOf s) (offsetOf s) t.toNat,
      uvDecode (gainOf s) (offsetOf s) (uvEncode (gainOf s) (offsetOf s) t.toNat))
  else .error (.unobtainable (signedWord (millivolts s uvLo)) (signedWord (millivolts s uvHi)) false)

/-- An OV target checked and encoded (R127, R155 step 3). -/
def encodeOv (s : State) (t : Word) : Except ErrorCause (Nat × Int) :=
  if insideWindow (millivolts s ovLo) (millivolts s ovHi) t then
    .ok (ovEncode (gainOf s) (offsetOf s) t.toNat,
      ovDecode (gainOf s) (offsetOf s) (ovEncode (gainOf s) (offsetOf s) t.toNat))
  else .error (.unobtainable (signedWord (millivolts s ovLo)) (signedWord (millivolts s ovHi)) true)

/-- The results of an encode operation: code and achieved millivolts (R126, R127). -/
def codeResults (p : Nat × Int) : Results := { r0 := unsignedWord p.1, r1 := signedWord p.2 }

/-! ### The operations -/

/-- `LDCAL` (R121): three bytes, or nothing is written. -/
def execLdcal (trim1 off trim2 : Word) (s : State) : Host.Outcome State Fault Refusal :=
  if isByte trim1 && isByte off && isByte trim2 then
    .next (respond { r0 := (calGain trim1 trim2).setWidth 32, r1 := (calOffset off).signExtend 32 }
      (loadCal (calGain trim1 trim2) (calOffset off) s))
  else .next (raise .invariant s)

/-- What `CONV` delivers (R123): a negative result is refused, not wrapped or clamped (R113, D11). -/
def convResult (raw : Word) (s : State) : Except ErrorCause Results :=
  if ¬ isRaw raw then .error .invariant
  else needFlag s.init
    (if millivolts s raw.toNat < 0 then .error .invariant else .ok { r0 := signedWord (millivolts s raw.toNat) })

/-- `CONV` (R123). -/
def execConv (raw : Word) (s : State) : Host.Outcome State Fault Refusal := .next (finish (convResult raw s) s)

/-- `UVWIN` (R124). -/
def execUvwin (s : State) : Host.Outcome State Fault Refusal :=
  .next (finish (needFlag s.calv
    (.ok { r0 := signedWord (millivolts s uvLo), r1 := signedWord (millivolts s uvHi) })) s)

/-- `OVWIN` (R125). -/
def execOvwin (s : State) : Host.Outcome State Fault Refusal :=
  .next (finish (needFlag s.calv
    (.ok { r0 := signedWord (millivolts s ovLo), r1 := signedWord (millivolts s ovHi) })) s)

/-- `UVENC` (R126). -/
def execUvenc (target : Word) (s : State) : Host.Outcome State Fault Refusal :=
  .next (finish (needFlag s.calv ((encodeUv s target).map codeResults)) s)

/-- `OVENC` (R127). -/
def execOvenc (target : Word) (s : State) : Host.Outcome State Fault Refusal :=
  .next (finish (needFlag s.calv ((encodeOv s target).map codeResults)) s)

/-- `UVDEC` (R128): the operand test comes before the flag test (R194). -/
def execUvdec (code : Word) (s : State) : Host.Outcome State Fault Refusal :=
  .next (finish (if ¬ isByte code then .error .invariant
    else needFlag s.calv (.ok { r0 := signedWord (millivolts s (uvRaw code.toNat)) })) s)

/-- `OVDEC` (R129). -/
def execOvdec (code : Word) (s : State) : Host.Outcome State Fault Refusal :=
  .next (finish (if ¬ isByte code then .error .invariant
    else needFlag s.calv (.ok { r0 := signedWord (millivolts s (ovRaw code.toNat)) })) s)

end Sys2Proof.Machine
end

