-- ==== Sys2Proof/Machine/Threshold.lean ====
section
/-! DEFINITION. The threshold encoder and the range reconciler: the codec functions and the operations `SCDTHR`, `OCDTHR`,
`SCDBITS`, `OCDBITS`, `RECON`, `PROTCFG` (spec/42_threshold.md R140 to R157). -/

namespace Sys2Proof.Machine

/-! ### The codec functions -/

/-- `range_of(e)` (R144). -/
def rangeOf (e : Entry) : Range :=
  match e.lo, e.up with
  | _, none => .lower
  | none, some _ => .upper
  | some _, some _ => .unknown

/-- `drop_mv(amps, shunt)`: the exact product, the fraction discarded (R145). -/
def dropMv (amps shunt : Word) : Nat := floorDiv (amps.toNat * shunt.toNat) 1000

/-- `from_current(T, amps, shunt)`: the first entry not below the drop, else the last (R146, C1). -/
def fromCurrent (t : Table) (amps shunt : Word) : Entry :=
  (t.entries.find? fun e => dropMv amps shunt ≤ e.mv.toNat).getD t.last

/-- `bits(T, e, r)`: `none` where it is undefined (R147). -/
def bitsOf (e : Entry) : Range → Option Nat
  | .lower => e.lo
  | .upper => e.up
  | .unknown => none

/-- `reconcile(a, b)`: `none` is `mismatch` (R148). -/
def reconcile : Range → Range → Option Range
  | .lower, .lower => some .lower
  | .lower, .upper => none
  | .lower, .unknown => some .lower
  | .upper, .lower => none
  | .upper, .upper => some .upper
  | .upper, .unknown => some .upper
  | .unknown, .lower => some .lower
  | .unknown, .upper => some .upper
  | .unknown, .unknown => some .lower

/-- The results of `SCDTHR` and `OCDTHR`: the threshold and its classification (R150, R151). -/
def thresholdResults (e : Entry) : Results := { r0 := e.mv, r1 := encodeRange (rangeOf e) }

/-- What `SCDBITS` and `OCDBITS` deliver, with the tests of R152 in their order. -/
def bitsResult (t : Table) (thr range : Word) : Except ErrorCause Results :=
  match decodeResolvedRange range with
  | none => .error .invariant
  | some r =>
    match t.entries.find? fun e => e.mv = thr with
    | none => .error .invariant
    | some e =>
      match bitsOf e r with
      | none => .error .invariant
      | some c => .ok { r0 := unsignedWord c }

/-- What `RECON` delivers (R154). -/
def reconResult (scd ocd : Word) : Except ErrorCause Results :=
  match decodeRange scd, decodeRange ocd with
  | some a, some b =>
    match reconcile a b with
    | none => .error .range
    | some r => .ok { r0 := encodeRange r }
  | _, _ => .error .invariant

/-- The protection codes of step 2 of `PROTCFG`: the resolved range with the two codes in it (R155, R149). -/
def protCodes (e o : Entry) : Except ErrorCause (Range × Nat × Nat) :=
  match reconcile (rangeOf e) (rangeOf o) with
  | none => .error .range
  | some r =>
    match bitsOf e r, bitsOf o r with
    | some ce, some co => .ok (r, ce, co)
    | _, _ => .error .invariant

/-- What `PROTCFG` delivers once `CALV` is known to be 1, with the tests of R155 in their order: ranges, then the UV target,
then the OV target. -/
def protResult (scd ocd shunt uv ov : Word) (s : State) : Except ErrorCause Results :=
  match protCodes (fromCurrent s.cfg.tblScd scd shunt) (fromCurrent s.cfg.tblOcd ocd shunt) with
  | .error e => .error e
  | .ok (r, ce, co) =>
    match encodeUv s uv with
    | .error e => .error e
    | .ok (uc, ua) =>
      match encodeOv s ov with
      | .error e => .error e
      | .ok (oc, oa) =>
        .ok { r0 := encodeRange r, r1 := unsignedWord ce, r2 := unsignedWord co, r3 := unsignedWord uc,
              r4 := unsignedWord oc, r5 := (fromCurrent s.cfg.tblScd scd shunt).mv,
              r6 := (fromCurrent s.cfg.tblOcd ocd shunt).mv, r7 := signedWord ua, r8 := signedWord oa }

/-! ### The operations -/

/-- `SCDTHR` (R150). -/
def execScdthr (amps shunt : Word) (s : State) : Host.Outcome State Fault Refusal :=
  .next (respond (thresholdResults (fromCurrent s.cfg.tblScd amps shunt)) s)

/-- `OCDTHR` (R151). -/
def execOcdthr (amps shunt : Word) (s : State) : Host.Outcome State Fault Refusal :=
  .next (respond (thresholdResults (fromCurrent s.cfg.tblOcd amps shunt)) s)

/-- `SCDBITS` (R152). -/
def execScdbits (thr range : Word) (s : State) : Host.Outcome State Fault Refusal :=
  .next (finish (bitsResult s.cfg.tblScd thr range) s)

/-- `OCDBITS` (R153). -/
def execOcdbits (thr range : Word) (s : State) : Host.Outcome State Fault Refusal :=
  .next (finish (bitsResult s.cfg.tblOcd thr range) s)

/-- `RECON` (R154). -/
def execRecon (scd ocd : Word) (s : State) : Host.Outcome State Fault Refusal :=
  .next (finish (reconResult scd ocd) s)

/-- `PROTCFG` (R155): no transport call, no persistent state. -/
def execProtcfg (scd ocd shunt uv ov : Word) (s : State) : Host.Outcome State Fault Refusal :=
  .next (finish (needFlag s.calv (protResult scd ocd shunt uv ov s)) s)

end Sys2Proof.Machine
end

