-- ==== Sys2Proof/Machine/Dispatch.lean ====
section
/-! DEFINITION. One arm per operation (spec/30_encoding.md R62). -/

namespace Sys2Proof.Machine

/-- Perform an operation in a state. -/
def exec (i : Instr) (s : State) : Host.Outcome State Fault Refusal :=
  match i with
  | .rdst => Sys2Proof.Machine.execRdst s
  | .commit shunt => Sys2Proof.Machine.execCommit shunt s
  | .crc8 buf => Sys2Proof.Machine.execCrc8 buf s
  | .wrreg reg buf => Sys2Proof.Machine.execWrreg reg buf s
  | .rdreg reg n => Sys2Proof.Machine.execRdreg reg n s
  | .ldcal trim1 off trim2 => Sys2Proof.Machine.execLdcal trim1 off trim2 s
  | .conv raw => Sys2Proof.Machine.execConv raw s
  | .uvwin => Sys2Proof.Machine.execUvwin s
  | .ovwin => Sys2Proof.Machine.execOvwin s
  | .uvenc target => Sys2Proof.Machine.execUvenc target s
  | .ovenc target => Sys2Proof.Machine.execOvenc target s
  | .uvdec code => Sys2Proof.Machine.execUvdec code s
  | .ovdec code => Sys2Proof.Machine.execOvdec code s
  | .scdthr amps shunt => Sys2Proof.Machine.execScdthr amps shunt s
  | .ocdthr amps shunt => Sys2Proof.Machine.execOcdthr amps shunt s
  | .scdbits thr range => Sys2Proof.Machine.execScdbits thr range s
  | .ocdbits thr range => Sys2Proof.Machine.execOcdbits thr range s
  | .recon scd ocd => Sys2Proof.Machine.execRecon scd ocd s
  | .protcfg scd ocd shunt uv ov => Sys2Proof.Machine.execProtcfg scd ocd shunt uv ov s

end Sys2Proof.Machine
end

