-- ==== Sys2Proof/Machine/Reset.lean ====
section
/-! DEFINITION. A reset that arrives during an operation (spec/70_reset_and_hazards.md R210), and which transport call an
operation makes (spec/20_memory.md R44). -/

namespace Sys2Proof.Machine

/-- The transport call an operation makes in a block of this configuration: `WRREG` and `RDREG` at most one, every other
operation none (R44). -/
def callOf (cfg : Config) : Instr → Option BusCall
  | .wrreg reg buf => ((wrregCall cfg reg buf).toOption).join
  | .rdreg reg n => ((rdregCall cfg reg n).toOption).join
  | .rdst => none
  | .commit _ => none
  | .crc8 _ => none
  | .ldcal _ _ _ => none
  | .conv _ => none
  | .uvwin => none
  | .ovwin => none
  | .uvenc _ => none
  | .ovenc _ => none
  | .uvdec _ => none
  | .ovdec _ => none
  | .scdthr _ _ => none
  | .ocdthr _ _ => none
  | .scdbits _ _ => none
  | .ocdbits _ _ => none
  | .recon _ _ => none
  | .protcfg _ _ _ _ _ => none

/-- The call an abandoned operation had under way, if any: the transport has been called, its answer is never taken (log 11). -/
def abandonedCall (cfg : Config) (r : Request) (called : Bool) : Option BusCall :=
  if called then (decode r).bind (callOf cfg) else none

/-- A reset during an operation abandons it (R210). What its call did to the device is the transport's doing (R51, U10). -/
def resetDuring (r : Request) (called : Bool) (s : State) : State :=
  match abandonedCall s.cfg r called with
  | none => applyReset s
  | some c => applyReset (afterCall c s)

end Sys2Proof.Machine
end

