-- ==== Sys2Proof/Machine/Step.lean ====
section
/-! DEFINITION. One step: the next host event is taken and served to completion (spec/20_memory.md R52, spec/10_state.md R34). -/

namespace Sys2Proof.Machine

/-- One step. Without an event the block waits (R210). A request runs the operation its opcode selects, or is refused with
`E_INVARIANT` when the opcode is reserved (R77). A reset resets (R210). -/
def step (s : State) : Host.Outcome State Fault Refusal :=
  match s.inbox with
  | [] => .next (idle s)
  | .request r :: rest =>
    match decode r with
    | some i => exec i (takeEvent rest s)
    | none => .next (rejectOpcode (takeEvent rest s))
  | .reset :: rest => .next (applyReset (takeEvent rest s))
  | .resetDuring r called :: rest => .next (resetDuring r called (takeEvent rest s))

/-- The state in which the next event is the request whose low `nbits` bits are `w` and whose other bits are 0 (log 4). -/
def State.withFetchWord (s : State) (nbits w : Nat) : State :=
  { s with inbox := .request (Request.ofBits (BitVec.ofNat 421 (w % 2 ^ nbits))) :: s.inbox }

end Sys2Proof.Machine
end

