-- ==== Sys2Proof/Safety.lean ====
section
/-! DEFINITION. What holds of every state a run reaches (spec/10_state.md, spec/60_exceptions.md R195, R205), the three states of
bring-up, and what an operation may leave unchanged. -/

namespace Sys2Proof.Machine

/-- The gains `LDCAL` can write: 365..396 (R24, R69). -/
abbrev calibratedGain (g : BitVec 16) : Prop := 365 ≤ g.toNat ∧ g.toNat ≤ 396

/-- A result state some operation can have left: on an error no result and no payload byte (R195), error information only with
`E_UNOBTAINABLE` (R36), `E_VERIFY` never (R190), at most `MAX_RD` payload bytes (R33, R50). -/
structure Response.Legal (maxBytes : Nat) (r : Response) : Prop where
  cleared  : r.status ≠ .ok → r.r = {} ∧ r.obuf = []
  info     : r.status ≠ .eUnobtainable → r.err0 = 0 ∧ r.err1 = 0 ∧ r.err2 = 0
  noVerify : r.status ≠ .eVerify
  payload  : r.obuf.length ≤ maxBytes

/-- The registers of the loopback device are in canonical form. -/
def Transport.canonical : Transport → Bool
  | .oracle _ => true
  | .loopback d => d.mem.wf

/-- The invariant of the machine: well-formed tables (R141), a calibration `LDCAL` can have written while `CALV` = 1 (R24), `INIT`
only with `CALV` (R172, R205), a legal result state, canonical device registers. -/
structure State.Inv (s : State) : Prop where
  tables    : s.cfg.wf
  gain      : s.calv = true → calibratedGain s.gain
  flags     : s.init = true → s.calv = true
  result    : s.resp.Legal s.cfg.variant.maxRd
  canonical : s.transport.canonical = true

/-- The three states of bring-up (R205). -/
inductive Phase where
  | reset
  | calibrated
  | initialized
deriving DecidableEq, Repr

/-- The bring-up state of the block; `none` for `CALV` = 0 with `INIT` = 1, which no run reaches (R205). -/
def State.phase (s : State) : Option Phase :=
  match s.calv, s.init with
  | false, false => some .reset
  | true, false => some .calibrated
  | true, true => some .initialized
  | false, true => none

/-- The persistent state of two states is the same (R20 (b)). -/
structure SamePersistent (s t : State) : Prop where
  gain   : t.gain = s.gain
  offset : t.offset = s.offset
  calv   : t.calv = s.calv
  shunt  : t.shunt = s.shunt
  init   : t.init = s.init

/-- The environment of the block is the same: no event taken, no transport call made, nothing drawn (R44). -/
structure SamePorts (s t : State) : Prop where
  inbox     : t.inbox = s.inbox
  transport : t.transport = s.transport
  trace     : t.trace = s.trace
  free      : t.free = s.free

/-- The register `a` of the loopback device, where that is the transport. -/
def State.deviceReg (s : State) (a : Nat) : Option Byte :=
  match s.transport with
  | .oracle _ => none
  | .loopback d => some (d.mem.read a)

end Sys2Proof.Machine
end

