-- ==== Sys2Proof/Certificates/Slice0/Obligations.lean ====
section
/-! DEFINITION. The statements for the provers. The functions of namespace Claims write the rules of the spec in a second form (division
and remainder for shifts and masks, an index for a list), so that a statement does not repeat the model's own definition. -/

namespace Sys2Proof.Claims

open Sys2Proof.Machine

/-! ### Responses -/

/-- The response of an operation that ends `OK` with results `r` (R32, R33, R36). -/
def answerOk (r : Results) : Response := ⟨.ok, 0, 0, 0, r, []⟩

/-- The response of an error that carries nothing (R185, R195). -/
def answerError (st : Status) : Response := ⟨st, 0, 0, 0, {}, []⟩

/-- The response `E_UNOBTAINABLE`: the window, and 0 for under-voltage or 1 for over-voltage (R36, R192). -/
def answerWindow (lo hi : Int) (which : Word) : Response :=
  ⟨.eUnobtainable, BitVec.ofInt 32 lo, BitVec.ofInt 32 hi, which, {}, []⟩

/-! ### The scaler in terms of division and remainder -/

/-- `xfer(g, o, raw)` (R112). -/
def mv (g o raw : Int) : Int := Int.tdiv (raw * g + o * 1000) 1000

/-- `GAIN` of a state as an integer. -/
def gain (s : State) : Int := s.gain.toNat

/-- `OFFSET` of a state as an integer. -/
def offset (s : State) : Int := s.offset.toInt

/-- `q` of R116 and R117. -/
def quotient (g o t : Int) : Int := Int.tdiv ((t - o) * 1000) g

/-- The 8-bit code of a target: bits 11:4 of `q` (R72). -/
def code (g o t : Int) : Nat := (quotient g o t).toNat / 16 % 256

/-- `G5` by its bit fields: `G5[4:3] = trim1[3:2]`, `G5[2:0] = trim2[7:5]` (R69). -/
def g5 (trim1 trim2 : Nat) : Nat := 8 * (trim1 / 4 % 4) + trim2 / 32

/-- A gain and an offset `cal` can give (R24, R25, R69, R70). -/
abbrev Calibrated (g o : Int) : Prop := 365 ≤ g ∧ g ≤ 396 ∧ -128 ≤ o ∧ o ≤ 127

/-! ### The threshold encoder -/

/-- The class of an entry as `R1` delivers it: 0 `Lower`, 1 `Upper`, 2 `Unknown` (R144, R75). -/
def classWord (e : Entry) : Word := if e.up = none then 0 else if e.lo = none then 1 else 2

/-- The drop in millivolts (R145). -/
def drop (amps shunt : Word) : Nat := amps.toNat * shunt.toNat / 1000

/-- `e` is the entry R146 selects from `t` for a drop of `m`: the lowest not below it, or the highest of all. -/
def Selects (t : Table) (m : Nat) (e : Entry) : Prop :=
  e ∈ t.entries ∧
  (m ≤ e.mv.toNat → ∀ x ∈ t.entries, m ≤ x.mv.toNat → e.mv.toNat ≤ x.mv.toNat) ∧
  (e.mv.toNat < m → ∀ x ∈ t.entries, x.mv.toNat ≤ e.mv.toNat)

/-- The code of an entry in the range a word names (R147): `none` where it is undefined. -/
def codeIn (e : Entry) (range : Word) : Option Nat := if range = 0 then e.lo else if range = 1 then e.up else none

/-- The resolved range of two classes none of which is reserved and which do not mismatch (R148). -/
def resolved (a b : Word) : Word := if a = 2 then (if b = 2 then 0 else b) else a

/-- One class is `Lower` and the other `Upper` (R148). -/
abbrev Mismatch (a b : Word) : Prop := (a = 0 ∧ b = 1) ∨ (a = 1 ∧ b = 0)

/-! ### Kinds of operation -/

/-- An operand outside its legal range, for the table of R78 in a block of configuration `cfg`. -/
def ReservedOperand (cfg : Config) : Instr → Prop
  | .wrreg reg _ => 0xFF < reg.toNat
  | .rdreg reg _ => 0xFF < reg.toNat
  | .ldcal trim1 off trim2 => 0xFF < trim1.toNat ∨ 0xFF < off.toNat ∨ 0xFF < trim2.toNat
  | .conv raw => 0x3FFF < raw.toNat
  | .uvdec c => 0xFF < c.toNat
  | .ovdec c => 0xFF < c.toNat
  | .scdbits thr range => 1 < range.toNat ∨ ∀ e ∈ cfg.tblScd.entries, e.mv ≠ thr
  | .ocdbits thr range => 1 < range.toNat ∨ ∀ e ∈ cfg.tblOcd.entries, e.mv ≠ thr
  | .recon scd ocd => 2 < scd.toNat ∨ 2 < ocd.toNat
  | .rdst | .commit _ | .crc8 _ | .uvwin | .ovwin | .uvenc _ | .ovenc _ | .scdthr _ _ | .ocdthr _ _
  | .protcfg _ _ _ _ _ => False

/-- The operations that need `CALV` = 1 (R189). -/
def NeedsCalv : Instr → Prop
  | .commit _ | .uvwin | .ovwin | .uvenc _ | .ovenc _ | .uvdec _ | .ovdec _ | .protcfg _ _ _ _ _ => True
  | .rdst | .crc8 _ | .wrreg _ _ | .rdreg _ _ | .ldcal _ _ _ | .conv _ | .scdthr _ _ | .ocdthr _ _ | .scdbits _ _
  | .ocdbits _ _ | .recon _ _ => False

/-- The operations that need `INIT` = 1 (R189). -/
def NeedsInit : Instr → Prop
  | .conv _ => True
  | .rdst | .commit _ | .crc8 _ | .wrreg _ _ | .rdreg _ _ | .ldcal _ _ _ | .uvwin | .ovwin | .uvenc _ | .ovenc _
  | .uvdec _ | .ovdec _ | .scdthr _ _ | .ocdthr _ _ | .scdbits _ _ | .ocdbits _ _ | .recon _ _
  | .protcfg _ _ _ _ _ => False

/-- The operations that write the result state and nothing else: every one but `COMMIT`, `LDCAL` and the framer's. -/
def OnlyResults : Instr → Prop
  | .commit _ | .crc8 _ | .wrreg _ _ | .rdreg _ _ | .ldcal _ _ _ => False
  | .rdst | .conv _ | .uvwin | .ovwin | .uvenc _ | .ovenc _ | .uvdec _ | .ovdec _ | .scdthr _ _ | .ocdthr _ _
  | .scdbits _ _ | .ocdbits _ _ | .recon _ _ | .protcfg _ _ _ _ _ => True

/-- How many of `R0`, `R1`, ... the row of an operation names (R62). -/
def resultsNamed : Instr → Nat
  | .commit _ | .wrreg _ _ | .rdreg _ _ => 0
  | .crc8 _ | .conv _ | .uvdec _ | .ovdec _ | .scdbits _ _ | .ocdbits _ _ | .recon _ _ => 1
  | .ldcal _ _ _ | .uvwin | .ovwin | .uvenc _ | .ovenc _ | .scdthr _ _ | .ocdthr _ _ => 2
  | .rdst => 6
  | .protcfg _ _ _ _ _ => 9

/-- The result registers in order. -/
def Listed (r : Results) : List Word := [r.r0, r.r1, r.r2, r.r3, r.r4, r.r5, r.r6, r.r7, r.r8]

/-- The operations the table of R185 lists as raising a status. -/
def MayRaise (i : Instr) : Status → Prop
  | .ok => True
  | .eCrc => ∃ reg n, i = .rdreg reg n
  | .eBus => (∃ reg buf, i = .wrreg reg buf) ∨ ∃ reg n, i = .rdreg reg n
  | .eTooLarge => (∃ reg buf, i = .wrreg reg buf) ∨ ∃ reg n, i = .rdreg reg n
  | .eUninit => NeedsCalv i ∨ NeedsInit i
  | .eVerify => False
  | .eRange => (∃ a b, i = .recon a b) ∨ ∃ a b c d e, i = .protcfg a b c d e
  | .eUnobtainable => (∃ t, i = .uvenc t) ∨ (∃ t, i = .ovenc t) ∨ ∃ a b c d e, i = .protcfg a b c d e
  | .eInvariant =>
    (∃ reg buf, i = .wrreg reg buf) ∨ (∃ reg n, i = .rdreg reg n) ∨ (∃ a b c, i = .ldcal a b c) ∨ (∃ r, i = .conv r) ∨
    (∃ c, i = .uvdec c) ∨ (∃ c, i = .ovdec c) ∨ (∃ a b, i = .scdbits a b) ∨ (∃ a b, i = .ocdbits a b) ∨
    ∃ a b, i = .recon a b

/-! ### Frames on the bus -/

/-- The address byte of a write and of a read: `DEV_ADDR << 1`, with bit 0 set for a read (R68). -/
def addressByte (a : BusAddr) (read : Bool) : Byte := BitVec.ofNat 8 (2 * a.toNat + if read then 1 else 0)

/-- The CRC byte of payload byte `i` of a write of `d` to `reg` (R94, R95). -/
def writeCrc (cfg : Config) (reg : Byte) (d : List Byte) (i : Nat) : Byte :=
  if i = 0 then crc8 cfg [addressByte cfg.devAddr false, reg, d.getD 0 0] else crc8 cfg [d.getD i 0]

/-- The CRC byte expected for value `i` of a read response whose values are at the even places of `buf` (R97). -/
def readCrc (cfg : Config) (buf : List Byte) (i : Nat) : Byte :=
  if i = 0 then crc8 cfg [addressByte cfg.devAddr true, buf.getD 0 0] else crc8 cfg [buf.getD (2 * i) 0]

/-- The response to an answer that is not silent: `E_BUS` for `fail`, `OK` otherwise (R45, R100). -/
def writeResponse (a : BusAnswer) : Response := if a = .fail then answerError .eBus else answerOk {}

/-- A transport that answers every call the block makes: a script without `silent`, or the loopback device (log 6, log 12). -/
def Answers : Transport → Prop
  | .oracle answers => BusAnswer.silent ∉ answers
  | .loopback _ => True

/-! ### Two states no operation can tell apart -/

/-- Two states that differ only in registers nothing has written: `GAIN` and `OFFSET` while `CALV` = 0, `SHUNT` while `INIT` = 0,
and in `CRCACC` (R37, R39, U8). -/
structure Alike (s s' : State) : Prop where
  cfg       : s'.cfg = s.cfg
  calv      : s'.calv = s.calv
  init      : s'.init = s.init
  resp      : s'.resp = s.resp
  inbox     : s'.inbox = s.inbox
  transport : s'.transport = s.transport
  trace     : s'.trace = s.trace
  free      : s'.free = s.free
  gain      : s.calv = true → s'.gain = s.gain
  offset    : s.calv = true → s'.offset = s.offset
  shunt     : s.init = true → s'.shunt = s.shunt

/-- Two outcomes no host can tell apart. -/
def AlikeOutcomes : Host.Outcome State Fault Refusal → Host.Outcome State Fault Refusal → Prop
  | .next t, .next t' => Alike t t'
  | .fault f, .fault f' => f = f'
  | .refused r, .refused r' => r = r'
  | _, _ => False

end Sys2Proof.Claims

open Sys2Proof Sys2Proof.Machine Sys2Proof.Claims

/-! ## Encoding -/

/-- Words written out from R60, R62 and the layout of log 5 decode to the operations they stand for: one of each unit, and a
reserved opcode. -/
def Obligations.WordsDecodeToTheirOperations : Prop :=
  decodeTableWord 8 0x00 = some .rdst ∧
  decodeTableWord 40 (0x01 + 667 * 2 ^ 8) = some (.commit 667) ∧
  decodeTableWord 189 (0x11 + 0x09 * 2 ^ 8 + 2 * 2 ^ 168 + 0xAB * 2 ^ 173 + 0x43 * 2 ^ 181) = some (.wrreg 0x09 [0xAB, 0x43]) ∧
  decodeTableWord 104 (0x20 + 0x15 * 2 ^ 8 + 0x2B * 2 ^ 40 + 0xA3 * 2 ^ 72) = some (.ldcal 0x15 0x2B 0xA3) ∧
  decodeTableWord 168 (0x35 + 200 * 2 ^ 8 + 100 * 2 ^ 40 + 667 * 2 ^ 72 + 2000 * 2 ^ 104 + 4175 * 2 ^ 136) =
    some (.protcfg 200 100 667 2000 4175) ∧
  decodeTableWord 8 0x02 = none

/-- Decoding the request of a well-formed operation gives the operation back, with every operand (R60, R62). -/
def Obligations.EncodeThenDecodeGivesTheOperation : Prop :=
  ∀ i : Instr, i.wf = true → decode (encode i) = some i

/-- Encoding the operation a request decodes to gives the request's opcode, its named operands and its payload (R60, R62). -/
def Obligations.DecodeThenEncodeKeepsEveryNamedField : Prop :=
  ∀ (r : Request) (i : Instr), decode r = some i →
    (encode i).op = r.op ∧
    ∃ row ∈ opcodeMap, row.op = r.op ∧
      (0 < row.operands → (encode i).a0 = r.a0) ∧ (1 < row.operands → (encode i).a1 = r.a1) ∧
      (2 < row.operands → (encode i).a2 = r.a2) ∧ (3 < row.operands → (encode i).a3 = r.a3) ∧
      (4 < row.operands → (encode i).a4 = r.a4) ∧ (row.buffer = true → (encode i).payload = r.payload)

/-- The record and the number that carries it determine each other (the number is the model's layout, log 5). -/
def Obligations.RequestRecordPacksWithoutLoss : Prop :=
  (∀ r : Request, Request.ofBits r.toBits = r) ∧ (∀ w : BitVec 421, (Request.ofBits w).toBits = w)

/-- A field an operation does not name has no effect on what the request selects (R30, R60). -/
def Obligations.FieldsNotNamedAreIgnored : Prop :=
  ∀ (r r' : Request) (row : OpcodeRow), row ∈ opcodeMap → r.op = row.op → r'.op = row.op →
    (0 < row.operands → r'.a0 = r.a0) → (1 < row.operands → r'.a1 = r.a1) → (2 < row.operands → r'.a2 = r.a2) →
    (3 < row.operands → r'.a3 = r.a3) → (4 < row.operands → r'.a4 = r.a4) →
    (row.buffer = true → r'.payload = r.payload) → decode r' = decode r

/-- A reserved opcode performs nothing: no transport call, no change of persistent state, `E_INVARIANT` with cleared results. There are
nineteen opcodes, so 237 reserved ones (R77). -/
def Obligations.ReservedOpcodePerformsNothing : Prop :=
  (opcodeMap.map OpcodeRow.op).Nodup ∧ opcodeMap.length = 19 ∧
  ∀ (s : State) (r : Request) (rest : List HostEvent), s.inbox = .request r :: rest →
    (∀ row ∈ opcodeMap, row.op ≠ r.op) →
    step s = .next { s with inbox := rest, resp := answerError .eInvariant }

/-! ## Steps, reset, invariant -/

/-- A step with a request whose opcode is in the map runs the decoded operation on the state from which the request has been taken. -/
def Obligations.StepRunsTheDecodedOperation : Prop :=
  ∀ (s : State) (r : Request) (rest : List HostEvent) (i : Instr), s.inbox = .request r :: rest → decode r = some i →
    step s = exec i { s with inbox := rest }

/-- Without a request the block waits: nothing changes (R210; the waiting step is the model's, log 3). -/
def Obligations.StepWithoutARequestWaits : Prop :=
  ∀ s : State, s.inbox = [] → step s = .next s

/-- Reset, as an event and as the first reset: flags 0, result state `OK` and 0, configuration unchanged (R39); no transport call and
the device keeps its registers (R211). -/
def Obligations.ResetSetsFlagsAndResultsAndKeepsTheRest : Prop :=
  (∀ c : Config, (State.resetFor c).cfg = c ∧ (State.resetFor c).calv = false ∧ (State.resetFor c).init = false ∧
    (State.resetFor c).resp = answerOk {}) ∧
  ∀ (s : State) (rest : List HostEvent), s.inbox = .reset :: rest →
    ∃ t, step s = .next t ∧ t.cfg = s.cfg ∧ t.calv = false ∧ t.init = false ∧ t.resp = answerOk {} ∧
      t.inbox = rest ∧ t.transport = s.transport ∧ t.trace = s.trace

/-- A reset during an operation abandons it: the block is as after a reset, nothing the operation would have written is there, and the
bus saw at most the one call the operation makes (R210; how the model lets the host say it, log 11). -/
def Obligations.ResetDuringAnOperationAbandonsIt : Prop :=
  ∀ (s : State) (r : Request) (called : Bool) (rest : List HostEvent), s.inbox = .resetDuring r called :: rest →
    ∃ t, step s = .next t ∧ t.cfg = s.cfg ∧ t.calv = false ∧ t.init = false ∧ t.resp = answerOk {} ∧ t.inbox = rest ∧
      (t.trace = s.trace ∧ t.transport = s.transport ∨
        called = true ∧ ∃ i c, decode r = some i ∧ callOf s.cfg i = some c ∧ t.trace = s.trace ++ [⟨s.cfg.tSettle, c⟩])

/-- The state after reset meets the invariant, for every configuration with well-formed tables and for the one of `State.reset`. -/
def Obligations.ResetMeetsTheInvariant : Prop :=
  (∀ c : Config, c.wf → (State.resetFor c).Inv) ∧ State.reset.Inv

/-- Every step keeps the invariant: `GAIN` in 365..396 while `CALV` = 1, `INIT` only with `CALV`, a legal result state, canonical
device registers, well-formed tables. -/
def Obligations.EveryStepKeepsTheInvariant : Prop :=
  ∀ s t : State, s.Inv → step s = .next t → t.Inv

/-- No step writes the configuration, reset included (R20 (a), R39). -/
def Obligations.NoStepWritesTheConfiguration : Prop :=
  ∀ s t : State, step s = .next t → t.cfg = s.cfg

/-- From a transport that answers every call, a script without `silent` (after which answers are free) or the loopback device, no run
stops: every operation ends (R179: "every operation terminates, provided the transport answers"). -/
def Obligations.EveryRunGoesOnWhileTheTransportAnswers : Prop :=
  ∀ (k : Nat) (s : State), Answers s.transport → ∃ t, Host.Core.run core k s = .next t

/-- A transport that never answers stops a `WRREG` or an `RDREG` that calls it, and nothing else stops an operation: where one stops, it
made a call, its answer is `silent`, and the script said so (R179, U11; the fault is the model's, log 7). -/
def Obligations.OnlyASilentTransportStopsAnOperation : Prop :=
  (∀ (i : Instr) (s : State) (c : BusCall) (rest : List BusAnswer), callOf s.cfg i = some c →
    s.transport = .oracle (.silent :: rest) → exec i s = .fault .transportSilent) ∧
  ∀ (i : Instr) (s : State), (∃ t, exec i s = .next t) ∨
    ∃ c rest, callOf s.cfg i = some c ∧ busAnswer c s = .silent ∧ s.transport = .oracle (.silent :: rest) ∧
      exec i s = .fault .transportSilent

/-- No host can tell apart two blocks that differ only in registers nothing has written: no result depends on `GAIN` or `OFFSET` while
`CALV` = 0, on `SHUNT` while `INIT` = 0, or on `CRCACC` (R37, R39). -/
def Obligations.UnwrittenRegistersCannotBeObserved : Prop :=
  ∀ s s' : State, (s.init = true → s.calv = true) → Alike s s' → AlikeOutcomes (step s) (step s')

/-! ## Rules over all operations -/

/-- `LDCAL` and `COMMIT` are the only operations that write persistent state (R170). -/
def Obligations.OnlyLdcalAndCommitWritePersistentState : Prop :=
  ∀ (i : Instr) (s t : State), exec i s = .next t →
    (∀ a b c, i ≠ .ldcal a b c) → (∀ w, i ≠ .commit w) → SamePersistent s t

/-- An operation that ends in an error: results and `OLEN` cleared, error information only where the kind names it, no persistent
state written, and nothing else of the machine changed unless a transport call was made, whose error is `E_BUS` or `E_CRC` (R195). -/
def Obligations.ErrorsClearResultsAndKeepPersistentState : Prop :=
  ∀ (i : Instr) (s t : State), exec i s = .next t → t.resp.status ≠ .ok →
    SamePersistent s t ∧ t.resp.r = {} ∧ t.resp.obuf = [] ∧ t.resp.olen = 0 ∧
    (t.resp.status ≠ .eUnobtainable → t.resp = answerError t.resp.status) ∧
    (t.resp.status ≠ .eBus → t.resp.status ≠ .eCrc → t = { s with resp := t.resp })

/-- Every result register an operation's row does not name is written with 0, and all nine when it ends in an error (R32). -/
def Obligations.ResultsNotNamedAreZero : Prop :=
  ∀ (i : Instr) (s t : State), exec i s = .next t →
    (∀ w ∈ (Listed t.resp.r).drop (resultsNamed i), w = 0) ∧
    (t.resp.status ≠ .ok → ∀ w ∈ Listed t.resp.r, w = 0) ∧
    ((∀ reg n, i ≠ .rdreg reg n) → t.resp.obuf = [])

/-- `E_UNINIT` is answered exactly where a needed flag is 0 and no operand is reserved (R189, with the order of R194). -/
def Obligations.UninitErrorExactlyWhereAFlagIsMissing : Prop :=
  ∀ (i : Instr) (s t : State), exec i s = .next t →
    (t.resp.status = .eUninit ↔
      ¬ ReservedOperand s.cfg i ∧ ((NeedsCalv i ∧ s.calv = false) ∨ (NeedsInit i ∧ s.init = false)))

/-- A reserved operand ends the operation with `E_INVARIANT` before anything else is checked or done (R78). -/
def Obligations.ReservedOperandIsRefusedFirst : Prop :=
  ∀ (i : Instr) (s : State), ReservedOperand s.cfg i → exec i s = .next { s with resp := answerError .eInvariant }

/-- Each status is raised only by the operations the table of R185 lists, `E_VERIFY` by none (R185, R190), for well-formed tables. -/
def Obligations.StatusesAreRaisedOnlyWhereListed : Prop :=
  ∀ (i : Instr) (s t : State), s.cfg.wf → exec i s = .next t → MayRaise i t.resp.status

/-- The bring-up states go forward only: `LDCAL` ending `OK` enters Calibrated from Reset, `COMMIT` ending `OK` enters Initialized, and
no other operation or outcome changes the state (R205). -/
def Obligations.BringUpGoesForwardOnly : Prop :=
  ∀ (i : Instr) (s t : State) (p : Phase), exec i s = .next t → s.phase = some p →
    ((∃ a b c, i = .ldcal a b c) ∧ t.resp.status = .ok →
      t.phase = some (if p = .reset then .calibrated else p)) ∧
    ((∃ w, i = .commit w) ∧ t.resp.status = .ok → t.phase = some .initialized ∧ p ≠ .reset) ∧
    (¬ ((∃ a b c, i = .ldcal a b c) ∧ t.resp.status = .ok) → ¬ ((∃ w, i = .commit w) ∧ t.resp.status = .ok) →
      t.phase = some p)

/-- One operation makes at most one transport call, appended to the earlier ones; only `WRREG` and `RDREG` of non-zero length make
one, always to `DEV_ADDR` (R44, R52). -/
def Obligations.OperationsMakeAtMostOneTransportCall : Prop :=
  ∀ (i : Instr) (s t : State), exec i s = .next t →
    (t.trace = s.trace ∧ t.transport = s.transport) ∨
    ∃ c, t.trace = s.trace ++ [⟨s.cfg.tSettle, c⟩] ∧
      ((∃ reg buf f, i = .wrreg reg buf ∧ buf ≠ [] ∧ buf.length ≤ 8 ∧ c = .write s.cfg.devAddr f) ∨
       ∃ reg n m, i = .rdreg reg n ∧ n ≠ 0 ∧ n.toNat ≤ 2 * s.cfg.variant.channels ∧
         c = .writeRead s.cfg.devAddr [reg.setWidth 8] m)

/-- The frame of the operations that write the result state only: nothing else of the machine changes, no device register either. -/
def Obligations.ResultOperationsChangeTheResultStateOnly : Prop :=
  ∀ (i : Instr) (s : State), OnlyResults i → ∃ p, exec i s = .next { s with resp := p }

/-- The frame of the framer's operations: configuration, persistent state and waiting requests are unchanged; `CRC8` leaves the ports
alone. Of the loopback fixture's registers, where that is the transport (log 12; of the bq769x0's nothing is claimed, R42, R51): `WRREG`
leaves all but `reg`, ..., `reg + n - 1` alone where the fixture's mode is the block's, and all outside 2n bytes from `reg` where it is
not, which rests on the fixture's and log 12's choices; `RDREG` leaves all of them alone. -/
def Obligations.FramerOperationsLeaveTheRest : Prop :=
  (∀ (buf : List Byte) (s t : State), exec (.crc8 buf) s = .next t → SamePersistent s t ∧ t.cfg = s.cfg ∧ SamePorts s t) ∧
  (∀ (reg n : Word) (s t : State), exec (.rdreg reg n) s = .next t →
    SamePersistent s t ∧ t.cfg = s.cfg ∧ t.inbox = s.inbox ∧ ∀ a, t.deviceReg a = s.deviceReg a) ∧
  ∀ (reg : Word) (buf : List Byte) (s t : State), exec (.wrreg reg buf) s = .next t →
    SamePersistent s t ∧ t.cfg = s.cfg ∧ t.inbox = s.inbox ∧
    ((∀ d, s.transport = .loopback d → d.crcMode = s.cfg.crcEn) →
      ∀ a, (∀ i < buf.length, a ≠ regAddr (lowByte reg) i) → t.deviceReg a = s.deviceReg a) ∧
    ∀ a, (∀ i < 2 * buf.length, a ≠ regAddr (lowByte reg) i) → t.deviceReg a = s.deviceReg a

/-! ## Control -/

/-- `RDST` (R171): gain and offset while `CALV` = 1 and 0 in their place otherwise, the shunt while `INIT` = 1 and 0 otherwise, the flags
`CRC_EN`, `INIT`, `CALV` in bits 2 to 0, the device address, the channel count; nothing else of the machine changes. -/
def Obligations.RdstReadsTheGuardedState : Prop :=
  ∀ s : State, exec .rdst s = .next { s with resp := (answerOk
    { r0 := if s.calv = true then BitVec.ofNat 32 s.gain.toNat else 0
      r1 := if s.calv = true then BitVec.ofInt 32 s.offset.toInt else 0
      r2 := if s.init = true then s.shunt else 0
      r3 := BitVec.ofNat 32 (4 * s.cfg.crcEn.toNat + 2 * s.init.toNat + s.calv.toNat)
      r4 := BitVec.ofNat 32 s.cfg.devAddr.toNat
      r5 := BitVec.ofNat 32 s.cfg.variant.channels }) }

/-- `COMMIT` (R172): with a calibration it writes `SHUNT` and `INIT` and nothing else; without one it writes nothing. -/
def Obligations.CommitNeedsACalibration : Prop :=
  (∀ (w : Word) (s : State), s.calv = true →
    exec (.commit w) s = .next { s with shunt := w, init := true, resp := answerOk {} }) ∧
  ∀ (w : Word) (s : State), s.calv = false → exec (.commit w) s = .next { s with resp := answerError .eUninit }

/-- The bring-up order reaches the Initialized state, where `CONV` delivers: from any state, `LDCAL` of three bytes, `COMMIT` of any
shunt, `CONV` of a raw code from 348 up (R212, R213, R113 (c)). -/
def Obligations.BringUpReachesConversion : Prop :=
  ∀ (s : State) (a b c w raw : Word), a.toNat ≤ 0xFF → b.toNat ≤ 0xFF → c.toNat ≤ 0xFF →
    348 ≤ raw.toNat → raw.toNat ≤ 0x3FFF →
    ∃ t u v, exec (.ldcal a b c) s = .next t ∧ exec (.commit w) t = .next u ∧ exec (.conv raw) u = .next v ∧
      u.phase = some .initialized ∧ v.phase = some .initialized ∧ v.resp.status = .ok ∧
      (v.resp.r.r0.toNat : Int) = mv (gain t) (offset t) raw.toNat

/-! ## Framer -/

/-- `CRC8` (R92, R99): the accumulator starts at `CRC_INIT`, takes every byte in order, and leaves with `CRC_XOROUT`. Of the hidden
`CRCACC` nothing is claimed (R37). -/
def Obligations.CrcOperationFoldsItsBytes : Prop :=
  ∀ (buf : List Byte) (s : State), ∃ (acc : Nat → Byte) (hidden : Byte), acc 0 = s.cfg.crcInit ∧
    (∀ j (h : j < buf.length), acc (j + 1) = crcStep (acc j) buf[j]) ∧
    exec (.crc8 buf) s = .next { s with
      crcacc := hidden
      resp := answerOk { r0 := BitVec.ofNat 32 (acc buf.length ^^^ s.cfg.crcXorOut).toNat } }

/-- The byte update of R91 as a long division by x⁸+x²+x+1: what eight iterations leave differs from the byte, moved up by eight places,
by a carry-less multiple of the polynomial 0x107. -/
def Obligations.CrcStepIsTheRemainderOfTheDivision : Prop :=
  ∀ acc b : Byte, ∃ q : Byte,
    ((acc ^^^ b).setWidth 16 <<< 8) ^^^ (crcStep acc b).setWidth 16 =
      (List.range 8).foldl (fun x j => x ^^^ if q.getLsbD j then (0x107 : BitVec 16) <<< j else 0) 0

/-- The facts R93 lists, (a) to (d). (a), (b) and (c) are about `CRC_INIT` = `CRC_XOROUT` = 0x00; (d) holds for any pair of them. -/
def Obligations.CrcFacts : Prop :=
  (∀ cfg : Config, cfg.crcInit = 0 → cfg.crcXorOut = 0 →
    (crc8 cfg [0x00] = 0x00 ∧ crc8 cfg [0x01] = 0x07 ∧ crc8 cfg [0x80] = 0x89 ∧ crc8 cfg [0xFF] = 0xF3) ∧
    crc8 cfg [0x31, 0x32, 0x33, 0x34, 0x35, 0x36, 0x37, 0x38, 0x39] = 0xF4 ∧
    (∀ s t : List Byte, s.length = t.length → crc8 cfg (List.zipWith (· ^^^ ·) s t) = crc8 cfg s ^^^ crc8 cfg t) ∧
    ∀ s : List Byte, crc8 cfg (0x00 :: s) = crc8 cfg s) ∧
  ∀ cfg : Config, Function.Bijective (fun b => crc8 cfg [b]) ∧ (∀ a, Function.Bijective fun b => crc8 cfg [a, b]) ∧
    ∀ a r, Function.Bijective fun b => crc8 cfg [a, r, b]

/-- `WRREG` in checksum mode (R63, R94, R95, R100): one call of `BusWrite` with the register address and a CRC byte after every payload
byte, the first of which covers the address byte and the register address too. -/
def Obligations.WriteFrameCarriesACrcAfterEveryByte : Prop :=
  ∀ (s : State) (reg : Word) (d : List Byte) (a : BusAnswer) (rest : List BusAnswer), s.cfg.crcEn = true →
    reg.toNat ≤ 0xFF → 1 ≤ d.length → d.length ≤ 8 → s.transport = .oracle (a :: rest) → a ≠ .silent →
    ∃ t f, exec (.wrreg reg d) s = .next t ∧ t.resp = writeResponse a ∧
      t.trace = s.trace ++ [⟨s.cfg.tSettle, .write s.cfg.devAddr f⟩] ∧
      t.transport = .oracle rest ∧ SamePersistent s t ∧ t.cfg = s.cfg ∧ t.inbox = s.inbox ∧
      f.length = 1 + 2 * d.length ∧ f[0]? = some (reg.setWidth 8) ∧
      ∀ i < d.length, f[1 + 2 * i]? = d[i]? ∧ f[2 + 2 * i]? = some (writeCrc s.cfg (reg.setWidth 8) d i)

/-- `WRREG` in plain mode (R64, R100): one call of `BusWrite` with the register address and the payload bytes; `CRCACC` is not used. -/
def Obligations.PlainWriteFrameIsAddressAndPayload : Prop :=
  ∀ (s : State) (reg : Word) (d : List Byte) (a : BusAnswer) (rest : List BusAnswer), s.cfg.crcEn = false →
    reg.toNat ≤ 0xFF → 1 ≤ d.length → d.length ≤ 8 → s.transport = .oracle (a :: rest) → a ≠ .silent →
    exec (.wrreg reg d) s = .next { s with
      transport := .oracle rest
      trace := s.trace ++ [⟨s.cfg.tSettle, .write s.cfg.devAddr (reg.setWidth 8 :: d)⟩]
      free := s.free + 1
      resp := writeResponse a }

/-- `RDREG` in checksum mode (R65, R97, R98, R101): one call of `BusWriteRead` for `2n` bytes with the register address as its query; when
every CRC byte is the expected one, the `n` values, else `E_CRC` and none. -/
def Obligations.ReadDeliversAllVerifiedBytesOrNone : Prop :=
  ∀ (s : State) (reg n : Word) (buf : List Byte) (rest : List BusAnswer), s.cfg.crcEn = true → reg.toNat ≤ 0xFF →
    1 ≤ n.toNat → n.toNat ≤ 2 * s.cfg.variant.channels → s.transport = .oracle (.ok buf :: rest) →
    buf.length = 2 * n.toNat →
    ∃ t, exec (.rdreg reg n) s = .next t ∧
      t.trace = s.trace ++ [⟨s.cfg.tSettle, .writeRead s.cfg.devAddr [reg.setWidth 8] (2 * n.toNat)⟩] ∧
      t.transport = .oracle rest ∧ SamePersistent s t ∧ t.cfg = s.cfg ∧ t.inbox = s.inbox ∧
      ((∀ i < n.toNat, buf[2 * i + 1]? = some (readCrc s.cfg buf i)) →
        ∃ v, t.resp = ⟨.ok, 0, 0, 0, {}, v⟩ ∧ v.length = n.toNat ∧ ∀ i < n.toNat, v[i]? = buf[2 * i]?) ∧
      ((∃ i < n.toNat, buf[2 * i + 1]? ≠ some (readCrc s.cfg buf i)) → t.resp = answerError .eCrc)

/-- `RDREG` in plain mode (R66, R101): one call for `n` bytes, every byte delivered unchecked. -/
def Obligations.PlainReadDeliversTheResponse : Prop :=
  ∀ (s : State) (reg n : Word) (buf : List Byte) (rest : List BusAnswer), s.cfg.crcEn = false → reg.toNat ≤ 0xFF →
    1 ≤ n.toNat → n.toNat ≤ 2 * s.cfg.variant.channels → s.transport = .oracle (.ok buf :: rest) →
    buf.length = n.toNat →
    exec (.rdreg reg n) s = .next { s with
      transport := .oracle rest
      trace := s.trace ++ [⟨s.cfg.tSettle, .writeRead s.cfg.devAddr [reg.setWidth 8] n.toNat⟩]
      free := s.free + 1
      resp := ⟨.ok, 0, 0, 0, {}, buf⟩ }

/-- The tests before the call, in their order and the same in both modes: a reserved `reg`, then length 0, which is a no-op success,
then an oversize length, `E_TOOLARGE` before any transport call (R50, R188, R194). -/
def Obligations.FramerTestsComeBeforeTheCall : Prop :=
  (∀ (s : State) (reg : Word) (d : List Byte), reg.toNat ≤ 0xFF →
    (d.length = 0 → exec (.wrreg reg d) s = .next { s with resp := answerOk {} }) ∧
    (8 < d.length → exec (.wrreg reg d) s = .next { s with resp := answerError .eTooLarge })) ∧
  (∀ (s : State) (reg n : Word), reg.toNat ≤ 0xFF →
    (n.toNat = 0 → exec (.rdreg reg n) s = .next { s with resp := answerOk {} }) ∧
    (2 * s.cfg.variant.channels < n.toNat → exec (.rdreg reg n) s = .next { s with resp := answerError .eTooLarge })) ∧
  (∀ (s : State) (reg : Word) (d : List Byte), 0xFF < reg.toNat →
    exec (.wrreg reg d) s = .next { s with resp := answerError .eInvariant }) ∧
  ∀ (s : State) (reg n : Word), 0xFF < reg.toNat →
    exec (.rdreg reg n) s = .next { s with resp := answerError .eInvariant }

/-- `E_BUS` if and only if the one transport call answered `fail`; `E_CRC` if and only if it answered `ok` and a received CRC byte differs
from the expected one (R105), for every operation that makes a call. -/
def Obligations.BusFailureAndCrcMismatchAreToldApart : Prop :=
  ∀ (i : Instr) (s t : State), exec i s = .next t →
    (t.resp.status = .eBus ↔ ∃ c, callOf s.cfg i = some c ∧ busAnswer c s = .fail) ∧
    (t.resp.status = .eCrc ↔ ∃ c bytes, callOf s.cfg i = some c ∧ busAnswer c s = .ok bytes ∧
      (∃ a q n, c = .writeRead a q n) ∧ s.cfg.crcEn = true ∧ ∃ j, 2 * j + 1 < bytes.length ∧
        bytes[2 * j + 1]? ≠ some (readCrc s.cfg bytes j))

/-- Corrupting any single byte of a response that a checksum-mode `RDREG` accepts makes it end with `E_CRC` and no payload bytes
(R103). -/
def Obligations.OneCorruptedByteIsAlwaysDetected : Prop :=
  ∀ (s t : State) (reg n : Word) (buf : List Byte) (rest : List BusAnswer) (j : Nat) (x : Byte), s.cfg.crcEn = true →
    s.transport = .oracle (.ok buf :: rest) → buf.length = 2 * n.toNat → 1 ≤ n.toNat →
    exec (.rdreg reg n) s = .next t → t.resp.status = .ok → j < buf.length → buf[j]? ≠ some x →
    ∃ u, exec (.rdreg reg n) { s with transport := .oracle (.ok (buf.set j x) :: rest) } = .next u ∧
      u.resp = answerError .eCrc

/-- Against the loopback device with the block's address and mode and no fault armed, a `WRREG` ends `OK` and the `RDREG` of the same
registers after it delivers what was written (R104). -/
def Obligations.WriteThenReadGivesBackThePayload : Prop :=
  ∀ (s : State) (d : Loopback) (reg : Word) (buf : List Byte), s.transport = .loopback d → d.addr = s.cfg.devAddr →
    d.crcMode = s.cfg.crcEn → d.failNext = false → d.corrupt = none → d.mem.wf = true → reg.toNat ≤ 0xFF →
    1 ≤ buf.length → buf.length ≤ 8 →
    ∃ t u, exec (.wrreg reg buf) s = .next t ∧ t.resp = answerOk {} ∧
      exec (.rdreg reg (BitVec.ofNat 32 buf.length)) t = .next u ∧ u.resp = ⟨.ok, 0, 0, 0, {}, buf⟩

/-! ## Scaler -/

/-- `LDCAL` (R121, R69, R70): the gain from the two trim fields, the offset as a signed byte, nothing else of the machine changed; an
operand above 0xFF and nothing is written. -/
def Obligations.LdcalLoadsTheTrimBytes : Prop :=
  (∀ (a b c : Word) (s : State), a.toNat ≤ 0xFF → b.toNat ≤ 0xFF → c.toNat ≤ 0xFF →
    exec (.ldcal a b c) s = .next { s with
      gain := BitVec.ofNat 16 (365 + g5 a.toNat c.toNat)
      offset := BitVec.ofNat 8 b.toNat
      calv := true
      resp := (answerOk
        { r0 := BitVec.ofNat 32 (365 + g5 a.toNat c.toNat)
          r1 := BitVec.ofInt 32 (if b.toNat < 128 then (b.toNat : Int) else (b.toNat : Int) - 256) }) }) ∧
  ∀ (a b c : Word) (s : State), 0xFF < a.toNat ∨ 0xFF < b.toNat ∨ 0xFF < c.toNat →
    exec (.ldcal a b c) s = .next { s with resp := answerError .eInvariant }

/-- `CONV` (R123): the reserved operand, the missing flag, the negative result, the millivolts truncated toward zero. -/
def Obligations.ConvDeliversTruncatedMillivolts : Prop :=
  ∀ (raw : Word) (s : State),
    (0x3FFF < raw.toNat → exec (.conv raw) s = .next { s with resp := answerError .eInvariant }) ∧
    (raw.toNat ≤ 0x3FFF → s.init = false → exec (.conv raw) s = .next { s with resp := answerError .eUninit }) ∧
    (raw.toNat ≤ 0x3FFF → s.init = true → mv (gain s) (offset s) raw.toNat < 0 →
      exec (.conv raw) s = .next { s with resp := answerError .eInvariant }) ∧
    (raw.toNat ≤ 0x3FFF → s.init = true → 0 ≤ mv (gain s) (offset s) raw.toNat →
      exec (.conv raw) s = .next { s with
        resp := answerOk { r0 := BitVec.ofNat 32 (mv (gain s) (offset s) raw.toNat).toNat } })

/-- `UVWIN` and `OVWIN` (R124, R125): the transfer function at the extreme trip codes, `E_UNINIT` without a calibration. -/
def Obligations.WindowOperationsDeliverTheExtremes : Prop :=
  ∀ s : State,
    (s.calv = true → exec .uvwin s = .next { s with resp := (answerOk
      { r0 := BitVec.ofInt 32 (mv (gain s) (offset s) 4096), r1 := BitVec.ofInt 32 (mv (gain s) (offset s) 8176) }) }) ∧
    (s.calv = true → exec .ovwin s = .next { s with resp := (answerOk
      { r0 := BitVec.ofInt 32 (mv (gain s) (offset s) 8200), r1 := BitVec.ofInt 32 (mv (gain s) (offset s) 12280) }) }) ∧
    (s.calv = false → exec .uvwin s = .next { s with resp := answerError .eUninit }) ∧
    (s.calv = false → exec .ovwin s = .next { s with resp := answerError .eUninit })

/-- `UVENC` (R126): the missing flag, a target outside the closed window, the code of bits 11:4 of `q` with the achieved value. -/
def Obligations.UvencValidatesAndEncodes : Prop :=
  ∀ (target : Word) (s : State),
    (s.calv = false → exec (.uvenc target) s = .next { s with resp := answerError .eUninit }) ∧
    (s.calv = true → (target.toNat : Int) < mv (gain s) (offset s) 4096 ∨ mv (gain s) (offset s) 8176 < target.toNat →
      exec (.uvenc target) s = .next { s with
        resp := answerWindow (mv (gain s) (offset s) 4096) (mv (gain s) (offset s) 8176) 0 }) ∧
    (s.calv = true → mv (gain s) (offset s) 4096 ≤ target.toNat → (target.toNat : Int) ≤ mv (gain s) (offset s) 8176 →
      exec (.uvenc target) s = .next { s with resp := (answerOk
        { r0 := BitVec.ofNat 32 (code (gain s) (offset s) target.toNat)
          r1 := BitVec.ofInt 32 (mv (gain s) (offset s) (4096 + 16 * code (gain s) (offset s) target.toNat)) }) })

/-- `OVENC` (R127): as `UVENC`, for the over-voltage window, whose trip codes have the low bits 0b1000. -/
def Obligations.OvencValidatesAndEncodes : Prop :=
  ∀ (target : Word) (s : State),
    (s.calv = false → exec (.ovenc target) s = .next { s with resp := answerError .eUninit }) ∧
    (s.calv = true → (target.toNat : Int) < mv (gain s) (offset s) 8200 ∨ mv (gain s) (offset s) 12280 < target.toNat →
      exec (.ovenc target) s = .next { s with
        resp := answerWindow (mv (gain s) (offset s) 8200) (mv (gain s) (offset s) 12280) 1 }) ∧
    (s.calv = true → mv (gain s) (offset s) 8200 ≤ target.toNat → (target.toNat : Int) ≤ mv (gain s) (offset s) 12280 →
      exec (.ovenc target) s = .next { s with resp := (answerOk
        { r0 := BitVec.ofNat 32 (code (gain s) (offset s) target.toNat)
          r1 := BitVec.ofInt 32 (mv (gain s) (offset s) (8200 + 16 * code (gain s) (offset s) target.toNat)) }) })

/-- `UVDEC` and `OVDEC` (R128, R129): the reserved operand, the missing flag, the millivolts of the trip code. -/
def Obligations.DecodeOperationsDeliverTripMillivolts : Prop :=
  ∀ (c : Word) (s : State),
    (0xFF < c.toNat → exec (.uvdec c) s = .next { s with resp := answerError .eInvariant } ∧
      exec (.ovdec c) s = .next { s with resp := answerError .eInvariant }) ∧
    (c.toNat ≤ 0xFF → s.calv = false → exec (.uvdec c) s = .next { s with resp := answerError .eUninit } ∧
      exec (.ovdec c) s = .next { s with resp := answerError .eUninit }) ∧
    (c.toNat ≤ 0xFF → s.calv = true →
      exec (.uvdec c) s = .next { s with
        resp := answerOk { r0 := BitVec.ofInt 32 (mv (gain s) (offset s) (4096 + 16 * c.toNat)) } } ∧
      exec (.ovdec c) s = .next { s with
        resp := answerOk { r0 := BitVec.ofInt 32 (mv (gain s) (offset s) (8200 + 16 * c.toNat)) } })

/-- Sign and size of the transfer function for a calibration `cal` can give (R113 (a) to (e)). -/
def Obligations.TransferFunctionSignAndSize : Prop :=
  ∀ (g : Nat) (o : Int) (raw : Nat), Calibrated g o → raw ≤ 0x3FFF →
    (-128 ≤ xfer g o raw ∧ xfer g o raw ≤ 6614) ∧
    (xfer g o raw < 0 ↔ (raw : Int) * g + o * 1000 ≤ -1000) ∧
    (0 ≤ o ∨ 348 ≤ raw → 0 ≤ xfer g o raw) ∧
    (∀ raw' ≤ raw, xfer g o raw' ≤ xfer g o raw) ∧
    ((raw : Int) * g + o * 1000).natAbs < 2 ^ 31

/-- The windows of every calibration `cal` can give: positive, in order, with a gap of 9 or 10 mV, between 1367 and 4989, which the
extreme calibrations reach (R115). -/
def Obligations.WindowsArePositiveAndApart : Prop :=
  xfer 365 (-128) uvLo = 1367 ∧ xfer 396 127 ovHi = 4989 ∧
  ∀ (g : Nat) (o : Int), Calibrated g o →
    1367 ≤ xfer g o uvLo ∧ xfer g o uvLo < xfer g o uvHi ∧ xfer g o uvHi < xfer g o ovLo ∧
    xfer g o ovLo < xfer g o ovHi ∧ xfer g o ovHi ≤ 4989 ∧
    (xfer g o ovLo - xfer g o uvHi = 9 ∨ xfer g o ovLo - xfer g o uvHi = 10)

/-- The achieved values of the 256 codes: positive, from one end of the window to the other, strictly increasing (R118). -/
def Obligations.AchievedValuesIncreaseWithTheCode : Prop :=
  ∀ (g : Nat) (o : Int), Calibrated g o →
    uvDecode g o 0 = xfer g o uvLo ∧ uvDecode g o 0xFF = xfer g o uvHi ∧
    ovDecode g o 0 = xfer g o ovLo ∧ ovDecode g o 0xFF = xfer g o ovHi ∧
    ∀ c ≤ 0xFF, 0 < uvDecode g o c ∧ 0 < ovDecode g o c ∧
      ∀ c' < c, uvDecode g o c' < uvDecode g o c ∧ ovDecode g o c' < ovDecode g o c

/-- The round-trip error (R119): the achieved over-voltage threshold lies within -4 and +3 mV of the request; the achieved
under-voltage threshold, where `q` is not below 0x1000, within -7 and 0 mV; there and in the over-voltage window the code does not
fall as the target rises. -/
def Obligations.RoundTripErrorIsBounded : Prop :=
  ∀ (g : Nat) (o : Int) (t : Nat), Calibrated g o →
    (xfer g o ovLo ≤ t → (t : Int) ≤ xfer g o ovHi →
      -4 ≤ ovDecode g o (ovEncode g o t) - t ∧ ovDecode g o (ovEncode g o t) - t ≤ 3) ∧
    (xfer g o uvLo ≤ t → (t : Int) ≤ xfer g o uvHi → 0x1000 ≤ rawOfTarget g o t →
      -7 ≤ uvDecode g o (uvEncode g o t) - t ∧ uvDecode g o (uvEncode g o t) - t ≤ 0) ∧
    (∀ t' ≥ t, xfer g o ovLo ≤ t → (t' : Int) ≤ xfer g o ovHi → ovEncode g o t ≤ ovEncode g o t') ∧
    (∀ t' ≥ t, 0x1000 ≤ rawOfTarget g o t → (t' : Int) ≤ xfer g o uvHi → uvEncode g o t ≤ uvEncode g o t')

/-- The under-voltage lower-edge wrap (R120): the target `uv_min`, which is `o` plus 4096 gains in whole millivolts, is encoded as 0xFF,
which decodes to `uv_max`, for every gain but 375; every other target of the window has `q` at least 0x1000. -/
def Obligations.LowestUvTargetWrapsToTheHighestCode : Prop :=
  ∀ (g : Nat) (o : Int) (t : Nat), Calibrated g o → xfer g o uvLo ≤ t → (t : Int) ≤ xfer g o uvHi →
    ((t : Int) = xfer g o uvLo → (t : Int) - o = (4096 * g / 1000 : Nat)) ∧
    ((t : Int) = xfer g o uvLo → g ≠ 375 →
      4093 ≤ rawOfTarget g o t ∧ rawOfTarget g o t < 0x1000 ∧ uvEncode g o t = 0xFF ∧
      uvDecode g o (uvEncode g o t) = xfer g o uvHi) ∧
    ((t : Int) ≠ xfer g o uvLo ∨ g = 375 → 0x1000 ≤ rawOfTarget g o t ∧ rawOfTarget g o t ≤ 8176)

/-! ## Threshold encoder -/

/-- `SCDTHR` and `OCDTHR` (R144, R145, R146, R150, R151), for well-formed tables: the selected entry and its class. -/
def Obligations.ThresholdOperationsRoundUpToAnEntry : Prop :=
  ∀ (amps shunt : Word) (s : State), s.cfg.wf →
    (∃ e, Selects s.cfg.tblScd (drop amps shunt) e ∧
      exec (.scdthr amps shunt) s = .next { s with resp := answerOk { r0 := e.mv, r1 := classWord e } }) ∧
    ∃ e, Selects s.cfg.tblOcd (drop amps shunt) e ∧
      exec (.ocdthr amps shunt) s = .next { s with resp := answerOk { r0 := e.mv, r1 := classWord e } }

/-- `SCDBITS` and `OCDBITS` (R147, R152, R153), for well-formed tables: the code of a table entry in the range named, `E_INVARIANT`
where there is none, for a value that is no entry's as well. -/
def Obligations.BitsOperationsDeliverTheCodeOfTheRange : Prop :=
  (∀ (thr range : Word) (s : State),
    ((∀ e ∈ s.cfg.tblScd.entries, e.mv ≠ thr) → exec (.scdbits thr range) s = .next { s with resp := answerError .eInvariant }) ∧
    ((∀ e ∈ s.cfg.tblOcd.entries, e.mv ≠ thr) → exec (.ocdbits thr range) s = .next { s with resp := answerError .eInvariant })) ∧
  ∀ (range : Word) (s : State) (e : Entry), s.cfg.wf →
    (e ∈ s.cfg.tblScd.entries →
      (∀ c, codeIn e range = some c → c < 8 ∧
        exec (.scdbits e.mv range) s = .next { s with resp := answerOk { r0 := BitVec.ofNat 32 c } }) ∧
      (codeIn e range = none → exec (.scdbits e.mv range) s = .next { s with resp := answerError .eInvariant })) ∧
    (e ∈ s.cfg.tblOcd.entries →
      (∀ c, codeIn e range = some c → c < 16 ∧
        exec (.ocdbits e.mv range) s = .next { s with resp := answerOk { r0 := BitVec.ofNat 32 c } }) ∧
      (codeIn e range = none → exec (.ocdbits e.mv range) s = .next { s with resp := answerError .eInvariant }))

/-- `RECON` (R148, R154): a reserved class, a mismatch, and the resolved range, which is never `Unknown`. -/
def Obligations.ReconResolvesTheSharedRange : Prop :=
  ∀ (a b : Word) (s : State),
    (2 < a.toNat ∨ 2 < b.toNat → exec (.recon a b) s = .next { s with resp := answerError .eInvariant }) ∧
    (Mismatch a b → exec (.recon a b) s = .next { s with resp := answerError .eRange }) ∧
    (a.toNat ≤ 2 → b.toNat ≤ 2 → ¬ Mismatch a b →
      exec (.recon a b) s = .next { s with resp := answerOk { r0 := resolved a b } } ∧ (resolved a b).toNat ≤ 1)

/-- `PROTCFG` (R155), for well-formed tables: its tests in their order, and its nine results. -/
def Obligations.ProtcfgFollowsItsSteps : Prop :=
  ∀ (scd ocd shunt uv ov : Word) (s : State) (e o : Entry), s.cfg.wf →
    Selects s.cfg.tblScd (drop scd shunt) e → Selects s.cfg.tblOcd (drop ocd shunt) o →
    (s.calv = false → exec (.protcfg scd ocd shunt uv ov) s = .next { s with resp := answerError .eUninit }) ∧
    (s.calv = true → Mismatch (classWord e) (classWord o) →
      exec (.protcfg scd ocd shunt uv ov) s = .next { s with resp := answerError .eRange }) ∧
    (s.calv = true → ¬ Mismatch (classWord e) (classWord o) →
      ((uv.toNat : Int) < mv (gain s) (offset s) 4096 ∨ mv (gain s) (offset s) 8176 < uv.toNat →
        exec (.protcfg scd ocd shunt uv ov) s = .next { s with
          resp := answerWindow (mv (gain s) (offset s) 4096) (mv (gain s) (offset s) 8176) 0 }) ∧
      (mv (gain s) (offset s) 4096 ≤ uv.toNat → (uv.toNat : Int) ≤ mv (gain s) (offset s) 8176 →
        ((ov.toNat : Int) < mv (gain s) (offset s) 8200 ∨ mv (gain s) (offset s) 12280 < ov.toNat →
          exec (.protcfg scd ocd shunt uv ov) s = .next { s with
            resp := answerWindow (mv (gain s) (offset s) 8200) (mv (gain s) (offset s) 12280) 1 }) ∧
        (mv (gain s) (offset s) 8200 ≤ ov.toNat → (ov.toNat : Int) ≤ mv (gain s) (offset s) 12280 →
          ∃ ce co, codeIn e (resolved (classWord e) (classWord o)) = some ce ∧
            codeIn o (resolved (classWord e) (classWord o)) = some co ∧
            exec (.protcfg scd ocd shunt uv ov) s = .next { s with resp := (answerOk
              { r0 := resolved (classWord e) (classWord o)
                r1 := BitVec.ofNat 32 ce
                r2 := BitVec.ofNat 32 co
                r3 := BitVec.ofNat 32 (code (gain s) (offset s) uv.toNat)
                r4 := BitVec.ofNat 32 (code (gain s) (offset s) ov.toNat)
                r5 := e.mv
                r6 := o.mv
                r7 := BitVec.ofInt 32 (mv (gain s) (offset s) (4096 + 16 * code (gain s) (offset s) uv.toNat))
                r8 := BitVec.ofInt 32 (mv (gain s) (offset s) (8200 + 16 * code (gain s) (offset s) ov.toNat)) }) })))

/-- Re-encoding always succeeds (R149): in well-formed tables a resolved range has a code for both entries, so `PROTCFG` never ends with
`E_INVARIANT`. -/
def Obligations.ReencodingAlwaysSucceeds : Prop :=
  (∀ (cfg : Config) (e o : Entry) (r : Range), cfg.wf → e ∈ cfg.tblScd.entries → o ∈ cfg.tblOcd.entries →
    reconcile (rangeOf e) (rangeOf o) = some r → (bitsOf e r).isSome = true ∧ (bitsOf o r).isSome = true) ∧
  ∀ (scd ocd shunt uv ov : Word) (s t : State), s.cfg.wf → exec (.protcfg scd ocd shunt uv ov) s = .next t →
    t.resp.status ≠ .eInvariant

/-- The properties of the codecs (R156 (a) to (e)), for a well-formed table. -/
def Obligations.CodecProperties : Prop :=
  (∀ (k : Nat) (t : Table) (amps shunt : Word), t.wf k →
    (dropMv amps shunt < t.first.mv.toNat → fromCurrent t amps shunt = t.first) ∧
    (t.last.mv.toNat < dropMv amps shunt → fromCurrent t amps shunt = t.last) ∧
    (∀ e ∈ t.entries, dropMv amps shunt = e.mv.toNat → fromCurrent t amps shunt = e) ∧
    (∀ amps' shunt' : Word, amps'.toNat ≤ amps.toNat → shunt'.toNat ≤ shunt.toNat →
      (fromCurrent t amps' shunt').mv.toNat ≤ (fromCurrent t amps shunt).mv.toNat) ∧
    (dropMv amps shunt ≤ t.last.mv.toNat ↔ dropMv amps shunt ≤ (fromCurrent t amps shunt).mv.toNat)) ∧
  ∀ a b : Range, (reconcile a b = none ↔ (a = .lower ∧ b = .upper) ∨ (a = .upper ∧ b = .lower)) ∧
    (a = .unknown ∨ b = .unknown → (reconcile a b).isSome = true) ∧ reconcile a b ≠ some .unknown

/-! ## Answered calls -/

/-- For every transport: an operation whose call is answered ends in a next state, with its one call on the trace, `E_BUS` where the
answer is `fail`, and for a `WRREG` `OK` where it is `ok` (R51, R100, R101, R187). -/
def Obligations.AnsweredCallEndsTheOperation : Prop :=
  ∀ (i : Instr) (s : State) (c : BusCall), callOf s.cfg i = some c → busAnswer c s ≠ .silent →
    ∃ t, exec i s = .next t ∧ t.trace = s.trace ++ [⟨s.cfg.tSettle, c⟩] ∧ SamePersistent s t ∧ t.cfg = s.cfg ∧
      t.inbox = s.inbox ∧ (busAnswer c s = .fail → t.resp = answerError .eBus) ∧
      ∀ bytes, busAnswer c s = .ok bytes → (∃ reg buf, i = .wrreg reg buf) → t.resp = answerOk {}
end

