-- ==== Sys2Proof/Laws/Arith.lean ====
section
/-! SUPPORT. The arithmetic of the model in the plain terms of the library: division, bit fields, register words. -/

namespace Sys2Proof.Machine

@[simp] theorem floorDiv_eq (a b : Nat) : floorDiv a b = a / b := rfl

/-- `trunc_div` is division toward zero (R16). -/
theorem truncDiv_eq_tdiv (a : Int) (b : Nat) : truncDiv a b = Int.tdiv a b := by
  unfold truncDiv
  split
  · rename_i h
    obtain ⟨n, rfl⟩ := Int.eq_ofNat_of_zero_le h
    simp [floorDiv]
  · rename_i h
    obtain ⟨n, hn⟩ := Int.eq_ofNat_of_zero_le (show 0 ≤ -a by omega)
    obtain rfl : a = -(n : Int) := by omega
    simp [floorDiv, Int.neg_tdiv]

theorem xfer_eq (g : Nat) (o : Int) (raw : Nat) : xfer g o raw = Int.tdiv ((raw : Int) * g + o * 1000) 1000 :=
  truncDiv_eq_tdiv _ _

theorem rawOfTarget_eq (g : Nat) (o : Int) (t : Nat) : rawOfTarget g o t = Int.tdiv (((t : Int) - o) * 1000) g :=
  truncDiv_eq_tdiv _ _

/-- Bits 11:4 of a quotient by division and remainder (R72). -/
theorem codeOfRaw_eq (q : Int) : codeOfRaw q = q.toNat / 16 % 256 := by
  unfold codeOfRaw
  rw [Nat.shiftRight_eq_div_pow, show (0xFF : Nat) = 2 ^ 8 - 1 by rfl, Nat.and_two_pow_sub_one_eq_mod]

theorem codeOfRaw_lt (q : Int) : codeOfRaw q < 256 := by
  rw [codeOfRaw_eq]; exact Nat.mod_lt _ (by decide)

/-- The OR of R114 is a sum, since bits 11:4 of the constants are 0 (R177). -/
theorem uvRaw_eq {c : Nat} (h : c ≤ 0xFF) : uvRaw c = 4096 + 16 * c := by
  have : ∀ c < 256, uvRaw c = 4096 + 16 * c := by decide +kernel
  exact this c (by omega)

theorem ovRaw_eq {c : Nat} (h : c ≤ 0xFF) : ovRaw c = 8200 + 16 * c := by
  have : ∀ c < 256, ovRaw c = 8200 + 16 * c := by decide +kernel
  exact this c (by omega)

@[simp] theorem isByte_iff (w : Word) : isByte w = true ↔ w.toNat ≤ 0xFF := by simp [isByte]

@[simp] theorem isRaw_iff (w : Word) : isRaw w = true ↔ w.toNat ≤ 0x3FFF := by simp [isRaw]

@[simp] theorem isByte_false_iff (w : Word) : isByte w = false ↔ 0xFF < w.toNat := by simp [isByte]

@[simp] theorem isRaw_false_iff (w : Word) : isRaw w = false ↔ 0x3FFF < w.toNat := by simp [isRaw]

theorem insideWindow_iff (lo hi : Int) (t : Word) : insideWindow lo hi t = true ↔ lo ≤ t.toNat ∧ (t.toNat : Int) ≤ hi := by
  simp [insideWindow]

/-- The gain trim by its bit fields (R69). -/
theorem gainTrim_toNat (a c : Word) (ha : a.toNat ≤ 0xFF) (hc : c.toNat ≤ 0xFF) :
    (gainTrim a c).toNat = 8 * (a.toNat / 4 % 4) + c.toNat / 32 := by
  have key : ∀ x < 256, ∀ y < 8, ((x <<< 1) &&& 0x18) ||| y = 8 * (x / 4 % 4) + y := by decide +kernel
  have h := key a.toNat (by omega) (c.toNat / 32) (by omega)
  rw [gainTrim, BitVec.toNat_or, BitVec.toNat_and, BitVec.toNat_shiftLeft, BitVec.toNat_ushiftRight,
    Nat.shiftRight_eq_div_pow, Nat.mod_eq_of_lt (by rw [Nat.shiftLeft_eq]; omega)]
  exact h

theorem gainTrim_lt (a c : Word) (ha : a.toNat ≤ 0xFF) (hc : c.toNat ≤ 0xFF) : (gainTrim a c).toNat < 32 := by
  rw [gainTrim_toNat a c ha hc]; omega

end Sys2Proof.Machine
end

