-- ==== Sys2Proof/Laws/Crc.lean ====
section
/-! SUPPORT. The laws of the CRC-8: it is linear over XOR, and injective in every byte (spec/40_framer.md R93). -/

namespace Sys2Proof.Machine

theorem byte_xor_left_comm (x y z : Byte) : x ^^^ (y ^^^ z) = y ^^^ (x ^^^ z) := by
  rw [← BitVec.xor_assoc, BitVec.xor_comm x y, BitVec.xor_assoc]

theorem crcShift_zero : crcShift 0 = 0 := by decide

theorem crcShift_xor (x y : Byte) : crcShift (x ^^^ y) = crcShift x ^^^ crcShift y := by
  unfold crcShift
  rw [BitVec.msb_xor, BitVec.shiftLeft_xor_distrib]
  cases x.msb <;> cases y.msb <;>
    simp [BitVec.xor_assoc, BitVec.xor_comm, byte_xor_left_comm, ← BitVec.xor_assoc crcPoly crcPoly]

theorem crcShift_iterate_xor (n : Nat) (x y : Byte) : crcShift^[n] (x ^^^ y) = crcShift^[n] x ^^^ crcShift^[n] y := by
  induction n generalizing x y with
  | zero => rfl
  | succ n ih => simp only [Function.iterate_succ, Function.comp, crcShift_xor, ih]

/-- The byte update depends on accumulator and byte through their XOR (R91). -/
theorem crcStep_eq_zero (acc b : Byte) : crcStep acc b = crcStep 0 (acc ^^^ b) := by simp [crcStep]

/-- The byte update is linear over XOR (R93 (c)). -/
theorem crcStep_xor (a a' b b' : Byte) : crcStep (a ^^^ a') (b ^^^ b') = crcStep a b ^^^ crcStep a' b' := by
  unfold crcStep
  rw [show a ^^^ a' ^^^ (b ^^^ b') = (a ^^^ b) ^^^ (a' ^^^ b') by
    simp [BitVec.xor_assoc, byte_xor_left_comm], crcShift_iterate_xor]

theorem crcStep_zero_zero : crcStep 0 0 = 0 := by decide

/-- A single shift loses nothing: bit 0 after it tells whether the polynomial was added. -/
theorem crcShift_injective : Function.Injective crcShift := by
  intro x y h
  have key : ∀ z : Byte, (if (crcShift z).getLsbD 0 then ((crcShift z ^^^ 0x07) >>> 1) ||| 0x80 else crcShift z >>> 1) = z := by
    decide +kernel
  rw [← key x, ← key y, h]

theorem crcStep_injective_byte (acc : Byte) : Function.Injective (crcStep acc) := by
  intro b b' h
  have := crcShift_injective.iterate 8 h
  simpa using congrArg (acc ^^^ ·) this

theorem crcStep_injective_acc (b : Byte) : Function.Injective fun acc => crcStep acc b := by
  intro a a' h
  have := crcShift_injective.iterate 8 h
  simpa using congrArg (· ^^^ b) this

theorem crcAcc_append (start : Byte) (g h : List Byte) : crcAcc start (g ++ h) = crcAcc (crcAcc start g) h :=
  List.foldl_append

/-- Byte-groups that differ in their last byte only have different CRCs (R93 (d)). -/
theorem crc8_last_injective (cfg : Config) (g : List Byte) : Function.Injective fun b => crc8 cfg (g ++ [b]) := by
  intro b b' h
  simp only [crc8, crcAcc_append] at h
  have := congrArg (· ^^^ cfg.crcXorOut) h
  simp only [BitVec.xor_assoc, BitVec.xor_self, BitVec.xor_zero] at this
  exact crcStep_injective_byte _ this

/-- An injective map of bytes to bytes is a bijection. -/
theorem byte_bijective {f : Byte → Byte} (h : Function.Injective f) : Function.Bijective f :=
  (Finite.injective_iff_bijective).mp h

/-- The accumulator is linear over XOR from a zero start (R93 (c)). -/
theorem crcAcc_xor (s t : List Byte) (a a' : Byte) (h : s.length = t.length) :
    crcAcc (a ^^^ a') (List.zipWith (· ^^^ ·) s t) = crcAcc a s ^^^ crcAcc a' t := by
  induction s generalizing t a a' with
  | nil =>
    cases t with
    | nil => rfl
    | cons _ _ => simp at h
  | cons x s ih =>
    cases t with
    | nil => simp at h
    | cons y t =>
      simp only [crcAcc, List.zipWith_cons_cons, List.foldl_cons] at ih ⊢
      rw [crcStep_xor]
      exact ih t _ _ (by simpa using h)

end Sys2Proof.Machine
end

