-- ==== Sys2Proof/Laws/Decode.lean ====
section
/-! SUPPORT. The laws of the request record: the payload of an encoded buffer, the buffer as a number, and what the decoder reads. -/

namespace Sys2Proof

/-- The payload of a request whose buffer fields were filled from a buffer that fits is that buffer. -/
theorem payload_of_padBuf (r : Request) (buf : List Byte) (h : buf.length ≤ 31) (hl : r.ilen = BitVec.ofNat 5 buf.length)
    (hb : r.ibuf = padBuf buf) : r.payload = buf := by
  apply List.ext_getElem?
  intro i
  rw [Request.payload, hl, hb, BitVec.toNat_ofNat, Nat.mod_eq_of_lt (by omega), List.getElem?_take]
  by_cases hi : i < buf.length
  · simp only [hi, if_true, padBuf, Vector.toList_ofFn, List.getElem?_ofFn]
    rw [dif_pos (by omega)]
    simp [hi]
  · simp [hi]

theorem withBuf_payload (r : Request) (buf : List Byte) (h : buf.length ≤ 31) : (r.withBuf buf).payload = buf :=
  payload_of_padBuf _ _ h rfl rfl

theorem payload_length_le (r : Request) : r.payload.length ≤ 31 := by
  simp [Request.payload]

/-- The number of a byte list, byte 0 in the least significant place. -/
def bytesNat (l : List Byte) : Nat := l.foldr (fun x acc => x.toNat + 256 * acc) 0

theorem bytesNat_lt (l : List Byte) : bytesNat l < 2 ^ (8 * l.length) := by
  induction l with
  | nil => simp [bytesNat]
  | cons x l ih =>
    have hx := x.isLt
    have : bytesNat (x :: l) = x.toNat + 256 * bytesNat l := rfl
    rw [this, List.length_cons, show 8 * (l.length + 1) = 8 + 8 * l.length by omega, Nat.pow_add]
    omega

/-- Byte `i` of that number is byte `i` of the list. -/
theorem bytesNat_div_mod (l : List Byte) (i : Nat) : bytesNat l / 2 ^ (8 * i) % 256 = (l.getD i 0).toNat := by
  induction l generalizing i with
  | nil => simp [bytesNat]
  | cons x l ih =>
    have hx := x.isLt
    have : bytesNat (x :: l) = x.toNat + 256 * bytesNat l := rfl
    rw [this]
    cases i with
    | zero => simp; omega
    | succ i =>
      rw [show 8 * (i + 1) = 8 + 8 * i by omega, Nat.pow_add, ← Nat.div_div_eq_div_mul]
      rw [show (x.toNat + 256 * bytesNat l) / 2 ^ 8 = bytesNat l by omega]
      simpa using ih i

/-- Byte `i` of `IBUF` in the number that carries it. -/
theorem bufBits_extract (b : Vector Byte 31) (i : Fin 31) : (bufBits b).extractLsb' (8 * i.val) 8 = b[i] := by
  apply BitVec.eq_of_toNat_eq
  have h1 : (bufBits b).toNat = bytesNat b.toList := by
    rw [bufBits, BitVec.toNat_ofNat]
    exact Nat.mod_eq_of_lt (lt_of_lt_of_eq (bytesNat_lt b.toList) (by simp))
  rw [BitVec.extractLsb'_toNat, h1, Nat.shiftRight_eq_div_pow]
  have := bytesNat_div_mod b.toList i.val
  simpa using this

/-- An opcode that is no row's decodes to nothing (R77). -/
theorem decode_none_iff (r : Request) : decode r = none ↔ ∀ row ∈ opcodeMap, row.op ≠ r.op := by
  have hlt := r.op.isLt
  have key : ∀ n < 256, (∀ row ∈ opcodeMap, row.op ≠ BitVec.ofNat 8 n) ↔
      n ∉ [0x00, 0x01, 0x10, 0x11, 0x12, 0x20, 0x21, 0x22, 0x23, 0x24, 0x25, 0x26, 0x27, 0x30, 0x31, 0x32, 0x33, 0x34, 0x35] := by
    decide +kernel
  have hk := key r.op.toNat hlt
  rw [BitVec.ofNat_toNat, BitVec.setWidth_eq] at hk
  rw [hk]
  unfold decode
  split <;> simp_all

end Sys2Proof
end

