-- ==== Sys2Proof/Laws/Framing.lean ====
section
/-! SUPPORT. The laws of frames: pairs and interleaving are inverse, the places of payload and CRC bytes in a frame, and the
verification of a response (spec/40_framer.md R94 to R98). -/

namespace Sys2Proof.Machine

@[simp] theorem writeGroups_length (a : BusAddr) (reg : Byte) (d : List Byte) : (writeGroups a reg d).length = d.length := by
  cases d <;> simp [writeGroups]

@[simp] theorem readGroups_length (a : BusAddr) (v : List Byte) : (readGroups a v).length = v.length := by
  cases v <;> simp [readGroups]

theorem interleave_nil (ys : List Byte) : interleave [] ys = [] := rfl

theorem interleave_cons (x y : Byte) (xs ys : List Byte) : interleave (x :: xs) (y :: ys) = x :: y :: interleave xs ys := rfl

theorem interleave_length (xs ys : List Byte) (h : xs.length = ys.length) : (interleave xs ys).length = 2 * xs.length := by
  induction xs generalizing ys with
  | nil => rfl
  | cons x xs ih =>
    cases ys with
    | nil => simp at h
    | cons y ys =>
      rw [interleave_cons, List.length_cons, List.length_cons, ih ys (by simpa using h), List.length_cons]
      omega

/-- Byte `2i` of an interleaving is byte `i` of the first list, byte `2i + 1` byte `i` of the second. -/
theorem interleave_get (xs ys : List Byte) (h : xs.length = ys.length) (i : Nat) :
    (interleave xs ys)[2 * i]? = xs[i]? ∧ (interleave xs ys)[2 * i + 1]? = ys[i]? := by
  induction xs generalizing ys i with
  | nil =>
    cases ys with
    | nil => simp [interleave_nil]
    | cons _ _ => simp at h
  | cons x xs ih =>
    cases ys with
    | nil => simp at h
    | cons y ys =>
      rw [interleave_cons]
      cases i with
      | zero => simp
      | succ i =>
        have := ih ys (by simpa using h) i
        rw [show 2 * (i + 1) = 2 * i + 1 + 1 by omega]
        simpa using this

/-- The pairs of an interleaving. -/
theorem pairsOf_interleave (xs ys : List Byte) (h : xs.length = ys.length) : pairsOf (interleave xs ys) = some (xs.zip ys) := by
  induction xs generalizing ys with
  | nil => rfl
  | cons x xs ih =>
    cases ys with
    | nil => simp at h
    | cons y ys => rw [interleave_cons, pairsOf, ih ys (by simpa using h)]; rfl

/-- A response of even length is `n` pairs, which sit at its even and odd places. -/
theorem pairsOf_even (buf : List Byte) (n : Nat) (h : buf.length = 2 * n) :
    ∃ ps, pairsOf buf = some ps ∧ ps.length = n ∧ ∀ i : Nat, (ps.map Prod.fst)[i]? = buf[2 * i]? ∧ (ps.map Prod.snd)[i]? = buf[2 * i + 1]? := by
  induction n generalizing buf with
  | zero =>
    obtain rfl : buf = [] := List.eq_nil_of_length_eq_zero (by omega)
    exact ⟨[], rfl, rfl, fun i => by simp⟩
  | succ n ih =>
    match buf, h with
    | x :: k :: t, h =>
      obtain ⟨ps, h1, h2, h3⟩ := ih t (by simp at h; omega)
      refine ⟨(x, k) :: ps, by simp [pairsOf, h1], by simp [h2], fun i => ?_⟩
      cases i with
      | zero => simp
      | succ i => rw [show 2 * (i + 1) = 2 * i + 1 + 1 by omega]; simpa using h3 i

theorem writeGroups_get (a : BusAddr) (reg : Byte) (d : List Byte) (i : Nat) (h : i < d.length) :
    (writeGroups a reg d)[i]? = some (if i = 0 then [addrW a, reg, d.getD 0 0] else [d.getD i 0]) := by
  cases d with
  | nil => simp at h
  | cons x d =>
    cases i with
    | zero => simp [writeGroups]
    | succ i =>
      have h' : i < d.length := by simpa using h
      simp [writeGroups, h']

theorem readGroups_get (a : BusAddr) (v : List Byte) (i : Nat) (h : i < v.length) :
    (readGroups a v)[i]? = some (if i = 0 then [addrR a, v.getD 0 0] else [v.getD i 0]) := by
  cases v with
  | nil => simp at h
  | cons x v =>
    cases i with
    | zero => simp [readGroups]
    | succ i =>
      have h' : i < v.length := by simpa using h
      simp [readGroups, h']

/-- The CRC expected for value `i` of a response (R97). -/
def expectedCrc (cfg : Config) (v : List Byte) (i : Nat) : Byte :=
  crc8 cfg (if i = 0 then [addrR cfg.devAddr, v.getD 0 0] else [v.getD i 0])

/-- What `check_r` delivers (R98): all values when every CRC byte is the expected one, nothing otherwise. -/
theorem checkPairs_eq (cfg : Config) (ps : List (Byte × Byte)) :
    checkPairs cfg ps = some (ps.map Prod.fst) ∧
        (∀ i < ps.length, (ps.map Prod.snd)[i]? = some (expectedCrc cfg (ps.map Prod.fst) i)) ∨
      checkPairs cfg ps = none ∧
        ∃ i < ps.length, (ps.map Prod.snd)[i]? ≠ some (expectedCrc cfg (ps.map Prod.fst) i) := by
  have hget : ∀ i < ps.length, ((readGroups cfg.devAddr (ps.map Prod.fst)).map (crc8 cfg))[i]? =
      some (expectedCrc cfg (ps.map Prod.fst) i) := by
    intro i hi
    rw [List.getElem?_map, readGroups_get _ _ _ (by simpa using hi)]
    rfl
  unfold checkPairs
  split
  · rename_i h
    refine .inl ⟨rfl, fun i hi => ?_⟩
    rw [h]
    exact hget i hi
  · rename_i h
    refine .inr ⟨rfl, ?_⟩
    by_contra hc
    push Not at hc
    apply h
    apply List.ext_getElem?
    intro i
    by_cases hi : i < ps.length
    · rw [hc i hi, hget i hi]
    · rw [List.getElem?_eq_none (by simpa using hi), List.getElem?_eq_none (by simpa using hi)]

end Sys2Proof.Machine
end

