-- ==== Sys2Proof/Laws/Memory.lean ====
section
/-! SUPPORT. The laws of the loopback device's registers: a read after a write, and the canonical form. -/

namespace Sys2Proof.Machine

/-- Every listed address is above `lo`. -/
def Memory.Above (lo : Nat) (m : Memory) : Prop := ∀ c ∈ m, lo < c.1

theorem memory_wf_cons (c : Host.Cell) (m : Memory) :
    Memory.wf (c :: m) = true ↔ c.1 < regSpace ∧ c.2 ≠ Memory.blank ∧ Memory.Above c.1 m ∧ Memory.wf m = true := by
  induction m generalizing c with
  | nil => simp [Memory.wf, Memory.Above]
  | cons d m ih =>
    have hd := ih d
    simp only [Memory.wf, Bool.and_eq_true, decide_eq_true_eq, Memory.Above, List.mem_cons, forall_eq_or_imp] at hd ⊢
    constructor
    · rintro ⟨⟨h1, h2⟩, h3⟩
      obtain ⟨h4, -, h6, -⟩ := hd.mp h3
      exact ⟨by omega, h2, ⟨h1, fun x hx => lt_trans h1 (h6 x hx)⟩, h3⟩
    · rintro ⟨-, h2, ⟨h3, -⟩, h5⟩
      exact ⟨⟨h3, h2⟩, h5⟩

theorem memory_above_mono {lo hi : Nat} {m : Memory} (h : lo ≤ hi) (ha : Memory.Above hi m) : Memory.Above lo m :=
  fun c hc => lt_of_le_of_lt h (ha c hc)

theorem memory_above_write {lo a : Nat} {b : Byte} {m : Memory} (h : lo < a) (hm : Memory.Above lo m) :
    Memory.Above lo (m.write a b) := by
  induction m with
  | nil =>
    unfold Memory.write
    split <;> simp [Memory.Above, h]
  | cons c m ih =>
    have hc : lo < c.1 := hm c (by simp)
    have ht : Memory.Above lo m := fun x hx => hm x (by simp [hx])
    unfold Memory.write
    split
    · split
      · exact hm
      · intro x hx
        rcases List.mem_cons.mp hx with rfl | hx
        · exact h
        · exact hm x hx
    · split
      · split
        · exact ht
        · intro x hx
          rcases List.mem_cons.mp hx with rfl | hx
          · exact h
          · exact ht x hx
      · intro x hx
        rcases List.mem_cons.mp hx with rfl | hx
        · exact hc
        · exact ih ht x hx

/-- A write keeps the canonical form. -/
theorem memory_write_wf (m : Memory) (a : Nat) (b : Byte) (ha : a < regSpace) (h : m.wf = true) :
    (m.write a b).wf = true := by
  induction m with
  | nil =>
    unfold Memory.write
    split
    · rfl
    · simp [Memory.wf, *]
  | cons c m ih =>
    obtain ⟨h1, h2, h3, h4⟩ := (memory_wf_cons c m).mp h
    unfold Memory.write
    split
    · split
      · exact h
      · rename_i hlt hb
        exact (memory_wf_cons _ _).mpr ⟨ha, hb, fun x hx => by
          rcases List.mem_cons.mp hx with rfl | hx
          · exact hlt
          · exact lt_trans hlt (h3 x hx), h⟩
    · split
      · split
        · exact h4
        · rename_i heq hb
          subst heq
          exact (memory_wf_cons _ _).mpr ⟨ha, hb, h3, h4⟩
      · exact (memory_wf_cons _ _).mpr ⟨h1, h2, memory_above_write (by omega) h3, ih h4⟩

/-- A read of an address below every listed one is blank. -/
theorem memory_read_above {lo : Nat} {m : Memory} (h : Memory.Above lo m) {a : Nat} (ha : a ≤ lo) :
    m.read a = Memory.blank := by
  induction m with
  | nil => rfl
  | cons c m ih =>
    have hc := h c (by simp)
    rw [Memory.read, if_neg (by omega)]
    exact ih fun x hx => h x (by simp [hx])

/-- A read after a write to the same address gives what was written. -/
theorem memory_read_write_same (m : Memory) (a : Nat) (b : Byte) (h : m.wf = true) : (m.write a b).read a = b := by
  induction m with
  | nil =>
    unfold Memory.write
    split <;> simp [Memory.read, *]
  | cons c m ih =>
    obtain ⟨-, -, h3, h4⟩ := (memory_wf_cons c m).mp h
    unfold Memory.write
    split
    · rename_i hlt
      split
      · rename_i hb
        rw [Memory.read, if_neg (by omega), hb]
        exact memory_read_above h3 (by omega)
      · simp [Memory.read]
    · split
      · rename_i heq
        split
        · rename_i hb
          rw [hb]
          exact memory_read_above h3 (by omega)
        · simp [Memory.read]
      · rename_i hne
        rw [Memory.read, if_neg (fun e => hne e.symm)]
        exact ih h4

/-- A write leaves every other address alone. -/
theorem memory_read_write_other (m : Memory) (a x : Nat) (b : Byte) (hx : x ≠ a) : (m.write a b).read x = m.read x := by
  induction m with
  | nil =>
    unfold Memory.write
    split <;> simp [Memory.read, Ne.symm hx]
  | cons c m ih =>
    unfold Memory.write
    split
    · split
      · rfl
      · rw [Memory.read, if_neg (Ne.symm hx)]
    · split
      · rename_i heq
        subst heq
        split <;> simp [Memory.read, Ne.symm hx]
      · simp only [Memory.read, ih]

theorem regAddr_lt (reg : Byte) (i : Nat) : regAddr reg i < regSpace := Nat.mod_lt _ (by decide)

/-- Two payload bytes of one transaction have different addresses. -/
theorem regAddr_inj {reg : Byte} {i j : Nat} (hi : i < regSpace) (hj : j < regSpace) (h : regAddr reg i = regAddr reg j) :
    i = j := by
  unfold regAddr regSpace at *
  omega

/-- Storing a payload keeps the canonical form. -/
theorem memory_writeBytes_wf (reg : Byte) (d : List Byte) (m : Memory) (i : Nat) (h : m.wf = true) :
    (m.writeBytes reg i d).wf = true := by
  induction d generalizing m i with
  | nil => exact h
  | cons b d ih => exact ih _ _ (memory_write_wf _ _ _ (regAddr_lt reg i) h)

/-- Storing a payload leaves every register it does not name alone. -/
theorem memory_read_writeBytes_other (reg : Byte) (d : List Byte) (m : Memory) (i a : Nat)
    (h : ∀ k < d.length, a ≠ regAddr reg (i + k)) : (m.writeBytes reg i d).read a = m.read a := by
  induction d generalizing m i with
  | nil => rfl
  | cons b d ih =>
    rw [Memory.writeBytes, ih, memory_read_write_other]
    · simpa using h 0 (by simp)
    · intro k hk
      simpa [Nat.add_assoc, Nat.add_comm 1 k] using h (k + 1) (by simpa using hk)

/-- Reading the registers of a payload after storing it gives the payload. -/
theorem memory_read_writeBytes (reg : Byte) (d : List Byte) (m : Memory) (i k : Nat) (h : m.wf = true)
    (hn : i + d.length ≤ regSpace) (hk : k < d.length) :
    (m.writeBytes reg i d).read (regAddr reg (i + k)) = d.getD k 0 := by
  induction d generalizing m i k with
  | nil => simp at hk
  | cons b d ih =>
    rw [List.length_cons] at hn hk
    cases k with
    | zero =>
      rw [Memory.writeBytes, memory_read_writeBytes_other, Nat.add_zero,
        memory_read_write_same _ _ _ h]
      · rfl
      · intro j hj e
        have := regAddr_inj (by omega) (by omega) e
        omega
    | succ k =>
      have := ih (m.write (regAddr reg i) b) (i + 1) k (memory_write_wf _ _ _ (regAddr_lt reg i) h) (by omega) (by omega)
      rw [Memory.writeBytes, show i + (k + 1) = i + 1 + k by omega, this]
      rfl

end Sys2Proof.Machine
end

