-- ==== Sys2Proof/Laws/State.lean ====
section
/-! SUPPORT. What each update of the state leaves in each field: one lemma per field per update, so that no proof unfolds a record
update. -/

namespace Sys2Proof.Machine

variable (s : State)

/-! ### `respond` -/

@[simp] theorem respond_cfg (r : Results) : (respond r s).cfg = s.cfg := rfl
@[simp] theorem respond_gain (r : Results) : (respond r s).gain = s.gain := rfl
@[simp] theorem respond_offset (r : Results) : (respond r s).offset = s.offset := rfl
@[simp] theorem respond_calv (r : Results) : (respond r s).calv = s.calv := rfl
@[simp] theorem respond_shunt (r : Results) : (respond r s).shunt = s.shunt := rfl
@[simp] theorem respond_init (r : Results) : (respond r s).init = s.init := rfl
@[simp] theorem respond_crcacc (r : Results) : (respond r s).crcacc = s.crcacc := rfl
@[simp] theorem respond_resp (r : Results) : (respond r s).resp = okResponse r := rfl
@[simp] theorem respond_inbox (r : Results) : (respond r s).inbox = s.inbox := rfl
@[simp] theorem respond_transport (r : Results) : (respond r s).transport = s.transport := rfl
@[simp] theorem respond_trace (r : Results) : (respond r s).trace = s.trace := rfl
@[simp] theorem respond_free (r : Results) : (respond r s).free = s.free := rfl

/-! ### `respondBytes` -/

@[simp] theorem respondBytes_cfg (v : List Byte) : (respondBytes v s).cfg = s.cfg := rfl
@[simp] theorem respondBytes_gain (v : List Byte) : (respondBytes v s).gain = s.gain := rfl
@[simp] theorem respondBytes_offset (v : List Byte) : (respondBytes v s).offset = s.offset := rfl
@[simp] theorem respondBytes_calv (v : List Byte) : (respondBytes v s).calv = s.calv := rfl
@[simp] theorem respondBytes_shunt (v : List Byte) : (respondBytes v s).shunt = s.shunt := rfl
@[simp] theorem respondBytes_init (v : List Byte) : (respondBytes v s).init = s.init := rfl
@[simp] theorem respondBytes_crcacc (v : List Byte) : (respondBytes v s).crcacc = s.crcacc := rfl
@[simp] theorem respondBytes_resp (v : List Byte) : (respondBytes v s).resp = okBytes v := rfl
@[simp] theorem respondBytes_inbox (v : List Byte) : (respondBytes v s).inbox = s.inbox := rfl
@[simp] theorem respondBytes_transport (v : List Byte) : (respondBytes v s).transport = s.transport := rfl
@[simp] theorem respondBytes_trace (v : List Byte) : (respondBytes v s).trace = s.trace := rfl
@[simp] theorem respondBytes_free (v : List Byte) : (respondBytes v s).free = s.free := rfl

/-! ### `raise` -/

@[simp] theorem raise_cfg (e : ErrorCause) : (raise e s).cfg = s.cfg := rfl
@[simp] theorem raise_gain (e : ErrorCause) : (raise e s).gain = s.gain := rfl
@[simp] theorem raise_offset (e : ErrorCause) : (raise e s).offset = s.offset := rfl
@[simp] theorem raise_calv (e : ErrorCause) : (raise e s).calv = s.calv := rfl
@[simp] theorem raise_shunt (e : ErrorCause) : (raise e s).shunt = s.shunt := rfl
@[simp] theorem raise_init (e : ErrorCause) : (raise e s).init = s.init := rfl
@[simp] theorem raise_crcacc (e : ErrorCause) : (raise e s).crcacc = s.crcacc := rfl
@[simp] theorem raise_resp (e : ErrorCause) : (raise e s).resp = errorResponse e := rfl
@[simp] theorem raise_inbox (e : ErrorCause) : (raise e s).inbox = s.inbox := rfl
@[simp] theorem raise_transport (e : ErrorCause) : (raise e s).transport = s.transport := rfl
@[simp] theorem raise_trace (e : ErrorCause) : (raise e s).trace = s.trace := rfl
@[simp] theorem raise_free (e : ErrorCause) : (raise e s).free = s.free := rfl

/-! ### `finish` -/

@[simp] theorem finish_cfg (x : Except ErrorCause Results) : (finish x s).cfg = s.cfg := rfl
@[simp] theorem finish_gain (x : Except ErrorCause Results) : (finish x s).gain = s.gain := rfl
@[simp] theorem finish_offset (x : Except ErrorCause Results) : (finish x s).offset = s.offset := rfl
@[simp] theorem finish_calv (x : Except ErrorCause Results) : (finish x s).calv = s.calv := rfl
@[simp] theorem finish_shunt (x : Except ErrorCause Results) : (finish x s).shunt = s.shunt := rfl
@[simp] theorem finish_init (x : Except ErrorCause Results) : (finish x s).init = s.init := rfl
@[simp] theorem finish_crcacc (x : Except ErrorCause Results) : (finish x s).crcacc = s.crcacc := rfl
@[simp] theorem finish_resp (x : Except ErrorCause Results) : (finish x s).resp = responseOf x := rfl
@[simp] theorem finish_inbox (x : Except ErrorCause Results) : (finish x s).inbox = s.inbox := rfl
@[simp] theorem finish_transport (x : Except ErrorCause Results) : (finish x s).transport = s.transport := rfl
@[simp] theorem finish_trace (x : Except ErrorCause Results) : (finish x s).trace = s.trace := rfl
@[simp] theorem finish_free (x : Except ErrorCause Results) : (finish x s).free = s.free := rfl

/-! ### `loadCal` -/

@[simp] theorem loadCal_cfg (g : BitVec 16) (o : BitVec 8) : (loadCal g o s).cfg = s.cfg := rfl
@[simp] theorem loadCal_gain (g : BitVec 16) (o : BitVec 8) : (loadCal g o s).gain = g := rfl
@[simp] theorem loadCal_offset (g : BitVec 16) (o : BitVec 8) : (loadCal g o s).offset = o := rfl
@[simp] theorem loadCal_calv (g : BitVec 16) (o : BitVec 8) : (loadCal g o s).calv = true := rfl
@[simp] theorem loadCal_shunt (g : BitVec 16) (o : BitVec 8) : (loadCal g o s).shunt = s.shunt := rfl
@[simp] theorem loadCal_init (g : BitVec 16) (o : BitVec 8) : (loadCal g o s).init = s.init := rfl
@[simp] theorem loadCal_crcacc (g : BitVec 16) (o : BitVec 8) : (loadCal g o s).crcacc = s.crcacc := rfl
@[simp] theorem loadCal_resp (g : BitVec 16) (o : BitVec 8) : (loadCal g o s).resp = s.resp := rfl
@[simp] theorem loadCal_inbox (g : BitVec 16) (o : BitVec 8) : (loadCal g o s).inbox = s.inbox := rfl
@[simp] theorem loadCal_transport (g : BitVec 16) (o : BitVec 8) : (loadCal g o s).transport = s.transport := rfl
@[simp] theorem loadCal_trace (g : BitVec 16) (o : BitVec 8) : (loadCal g o s).trace = s.trace := rfl
@[simp] theorem loadCal_free (g : BitVec 16) (o : BitVec 8) : (loadCal g o s).free = s.free := rfl

/-! ### `commitShunt` -/

@[simp] theorem commitShunt_cfg (w : Word) : (commitShunt w s).cfg = s.cfg := rfl
@[simp] theorem commitShunt_gain (w : Word) : (commitShunt w s).gain = s.gain := rfl
@[simp] theorem commitShunt_offset (w : Word) : (commitShunt w s).offset = s.offset := rfl
@[simp] theorem commitShunt_calv (w : Word) : (commitShunt w s).calv = s.calv := rfl
@[simp] theorem commitShunt_shunt (w : Word) : (commitShunt w s).shunt = w := rfl
@[simp] theorem commitShunt_init (w : Word) : (commitShunt w s).init = true := rfl
@[simp] theorem commitShunt_crcacc (w : Word) : (commitShunt w s).crcacc = s.crcacc := rfl
@[simp] theorem commitShunt_resp (w : Word) : (commitShunt w s).resp = s.resp := rfl
@[simp] theorem commitShunt_inbox (w : Word) : (commitShunt w s).inbox = s.inbox := rfl
@[simp] theorem commitShunt_transport (w : Word) : (commitShunt w s).transport = s.transport := rfl
@[simp] theorem commitShunt_trace (w : Word) : (commitShunt w s).trace = s.trace := rfl
@[simp] theorem commitShunt_free (w : Word) : (commitShunt w s).free = s.free := rfl

/-! ### `afterCall` -/

@[simp] theorem afterCall_cfg (c : BusCall) : (afterCall c s).cfg = s.cfg := rfl
@[simp] theorem afterCall_gain (c : BusCall) : (afterCall c s).gain = s.gain := rfl
@[simp] theorem afterCall_offset (c : BusCall) : (afterCall c s).offset = s.offset := rfl
@[simp] theorem afterCall_calv (c : BusCall) : (afterCall c s).calv = s.calv := rfl
@[simp] theorem afterCall_shunt (c : BusCall) : (afterCall c s).shunt = s.shunt := rfl
@[simp] theorem afterCall_init (c : BusCall) : (afterCall c s).init = s.init := rfl
@[simp] theorem afterCall_crcacc (c : BusCall) : (afterCall c s).crcacc = s.crcacc := rfl
@[simp] theorem afterCall_resp (c : BusCall) : (afterCall c s).resp = s.resp := rfl
@[simp] theorem afterCall_inbox (c : BusCall) : (afterCall c s).inbox = s.inbox := rfl
@[simp] theorem afterCall_transport (c : BusCall) : (afterCall c s).transport = (s.transport.reply s.cfg s.free c).2 := rfl
@[simp] theorem afterCall_trace (c : BusCall) : (afterCall c s).trace = s.trace ++ [⟨s.cfg.tSettle, c⟩] := rfl
@[simp] theorem afterCall_free (c : BusCall) : (afterCall c s).free = s.free + 1 := rfl

/-! ### `takeEvent` -/

@[simp] theorem takeEvent_cfg (rest : List HostEvent) : (takeEvent rest s).cfg = s.cfg := rfl
@[simp] theorem takeEvent_gain (rest : List HostEvent) : (takeEvent rest s).gain = s.gain := rfl
@[simp] theorem takeEvent_offset (rest : List HostEvent) : (takeEvent rest s).offset = s.offset := rfl
@[simp] theorem takeEvent_calv (rest : List HostEvent) : (takeEvent rest s).calv = s.calv := rfl
@[simp] theorem takeEvent_shunt (rest : List HostEvent) : (takeEvent rest s).shunt = s.shunt := rfl
@[simp] theorem takeEvent_init (rest : List HostEvent) : (takeEvent rest s).init = s.init := rfl
@[simp] theorem takeEvent_crcacc (rest : List HostEvent) : (takeEvent rest s).crcacc = s.crcacc := rfl
@[simp] theorem takeEvent_resp (rest : List HostEvent) : (takeEvent rest s).resp = s.resp := rfl
@[simp] theorem takeEvent_inbox (rest : List HostEvent) : (takeEvent rest s).inbox = rest := rfl
@[simp] theorem takeEvent_transport (rest : List HostEvent) : (takeEvent rest s).transport = s.transport := rfl
@[simp] theorem takeEvent_trace (rest : List HostEvent) : (takeEvent rest s).trace = s.trace := rfl
@[simp] theorem takeEvent_free (rest : List HostEvent) : (takeEvent rest s).free = s.free := rfl

/-! ### `applyReset` -/

@[simp] theorem applyReset_cfg : (applyReset s).cfg = s.cfg := rfl
@[simp] theorem applyReset_gain : (applyReset s).gain = Config.gainAfterReset s.free := rfl
@[simp] theorem applyReset_offset : (applyReset s).offset = Config.offsetAfterReset s.free := rfl
@[simp] theorem applyReset_calv : (applyReset s).calv = false := rfl
@[simp] theorem applyReset_shunt : (applyReset s).shunt = Config.shuntAfterReset s.free := rfl
@[simp] theorem applyReset_init : (applyReset s).init = false := rfl
@[simp] theorem applyReset_crcacc : (applyReset s).crcacc = Config.crcaccAfterReset s.free := rfl
@[simp] theorem applyReset_resp : (applyReset s).resp = .idle := rfl
@[simp] theorem applyReset_inbox : (applyReset s).inbox = s.inbox := rfl
@[simp] theorem applyReset_transport : (applyReset s).transport = s.transport := rfl
@[simp] theorem applyReset_trace : (applyReset s).trace = s.trace := rfl
@[simp] theorem applyReset_free : (applyReset s).free = s.free + 1 := rfl

/-! ### `withFetchWord` -/

@[simp] theorem withFetchWord_cfg (nbits w : Nat) : (s.withFetchWord nbits w).cfg = s.cfg := rfl
@[simp] theorem withFetchWord_gain (nbits w : Nat) : (s.withFetchWord nbits w).gain = s.gain := rfl
@[simp] theorem withFetchWord_offset (nbits w : Nat) : (s.withFetchWord nbits w).offset = s.offset := rfl
@[simp] theorem withFetchWord_calv (nbits w : Nat) : (s.withFetchWord nbits w).calv = s.calv := rfl
@[simp] theorem withFetchWord_shunt (nbits w : Nat) : (s.withFetchWord nbits w).shunt = s.shunt := rfl
@[simp] theorem withFetchWord_init (nbits w : Nat) : (s.withFetchWord nbits w).init = s.init := rfl
@[simp] theorem withFetchWord_crcacc (nbits w : Nat) : (s.withFetchWord nbits w).crcacc = s.crcacc := rfl
@[simp] theorem withFetchWord_resp (nbits w : Nat) : (s.withFetchWord nbits w).resp = s.resp := rfl
@[simp] theorem withFetchWord_inbox (nbits w : Nat) : (s.withFetchWord nbits w).inbox = .request (Request.ofBits (BitVec.ofNat 421 (w % 2 ^ nbits))) :: s.inbox := rfl
@[simp] theorem withFetchWord_transport (nbits w : Nat) : (s.withFetchWord nbits w).transport = s.transport := rfl
@[simp] theorem withFetchWord_trace (nbits w : Nat) : (s.withFetchWord nbits w).trace = s.trace := rfl
@[simp] theorem withFetchWord_free (nbits w : Nat) : (s.withFetchWord nbits w).free = s.free := rfl

/-! ### `noteGroups`, `afterWriteCrcs`, `afterWrite`: only `CRCACC` and the counter of free values can change -/

@[simp] theorem noteGroups_cfg (gs : List (List Byte)) : (noteGroups gs s).cfg = s.cfg := by
  unfold noteGroups; split <;> rfl
@[simp] theorem noteGroups_gain (gs : List (List Byte)) : (noteGroups gs s).gain = s.gain := by
  unfold noteGroups; split <;> rfl
@[simp] theorem noteGroups_offset (gs : List (List Byte)) : (noteGroups gs s).offset = s.offset := by
  unfold noteGroups; split <;> rfl
@[simp] theorem noteGroups_calv (gs : List (List Byte)) : (noteGroups gs s).calv = s.calv := by
  unfold noteGroups; split <;> rfl
@[simp] theorem noteGroups_shunt (gs : List (List Byte)) : (noteGroups gs s).shunt = s.shunt := by
  unfold noteGroups; split <;> rfl
@[simp] theorem noteGroups_init (gs : List (List Byte)) : (noteGroups gs s).init = s.init := by
  unfold noteGroups; split <;> rfl
@[simp] theorem noteGroups_resp (gs : List (List Byte)) : (noteGroups gs s).resp = s.resp := by
  unfold noteGroups; split <;> rfl
@[simp] theorem noteGroups_inbox (gs : List (List Byte)) : (noteGroups gs s).inbox = s.inbox := by
  unfold noteGroups; split <;> rfl
@[simp] theorem noteGroups_transport (gs : List (List Byte)) : (noteGroups gs s).transport = s.transport := by
  unfold noteGroups; split <;> rfl
@[simp] theorem noteGroups_trace (gs : List (List Byte)) : (noteGroups gs s).trace = s.trace := by
  unfold noteGroups; split <;> rfl
@[simp] theorem afterWriteCrcs_cfg (reg : Word) (d : List Byte) : (afterWriteCrcs reg d s).cfg = s.cfg := by
  unfold afterWriteCrcs; split <;> simp
@[simp] theorem afterWriteCrcs_gain (reg : Word) (d : List Byte) : (afterWriteCrcs reg d s).gain = s.gain := by
  unfold afterWriteCrcs; split <;> simp
@[simp] theorem afterWriteCrcs_offset (reg : Word) (d : List Byte) : (afterWriteCrcs reg d s).offset = s.offset := by
  unfold afterWriteCrcs; split <;> simp
@[simp] theorem afterWriteCrcs_calv (reg : Word) (d : List Byte) : (afterWriteCrcs reg d s).calv = s.calv := by
  unfold afterWriteCrcs; split <;> simp
@[simp] theorem afterWriteCrcs_shunt (reg : Word) (d : List Byte) : (afterWriteCrcs reg d s).shunt = s.shunt := by
  unfold afterWriteCrcs; split <;> simp
@[simp] theorem afterWriteCrcs_init (reg : Word) (d : List Byte) : (afterWriteCrcs reg d s).init = s.init := by
  unfold afterWriteCrcs; split <;> simp
@[simp] theorem afterWriteCrcs_resp (reg : Word) (d : List Byte) : (afterWriteCrcs reg d s).resp = s.resp := by
  unfold afterWriteCrcs; split <;> simp
@[simp] theorem afterWriteCrcs_inbox (reg : Word) (d : List Byte) : (afterWriteCrcs reg d s).inbox = s.inbox := by
  unfold afterWriteCrcs; split <;> simp
@[simp] theorem afterWriteCrcs_transport (reg : Word) (d : List Byte) : (afterWriteCrcs reg d s).transport = s.transport := by
  unfold afterWriteCrcs; split <;> simp
@[simp] theorem afterWriteCrcs_trace (reg : Word) (d : List Byte) : (afterWriteCrcs reg d s).trace = s.trace := by
  unfold afterWriteCrcs; split <;> simp
@[simp] theorem afterWrite_cfg (reg : Word) (d : List Byte) (c : BusCall) : (afterWrite reg d c s).cfg = s.cfg := by
  simp [afterWrite]
@[simp] theorem afterWrite_gain (reg : Word) (d : List Byte) (c : BusCall) : (afterWrite reg d c s).gain = s.gain := by
  simp [afterWrite]
@[simp] theorem afterWrite_offset (reg : Word) (d : List Byte) (c : BusCall) : (afterWrite reg d c s).offset = s.offset := by
  simp [afterWrite]
@[simp] theorem afterWrite_calv (reg : Word) (d : List Byte) (c : BusCall) : (afterWrite reg d c s).calv = s.calv := by
  simp [afterWrite]
@[simp] theorem afterWrite_shunt (reg : Word) (d : List Byte) (c : BusCall) : (afterWrite reg d c s).shunt = s.shunt := by
  simp [afterWrite]
@[simp] theorem afterWrite_init (reg : Word) (d : List Byte) (c : BusCall) : (afterWrite reg d c s).init = s.init := by
  simp [afterWrite]
@[simp] theorem afterWrite_resp (reg : Word) (d : List Byte) (c : BusCall) : (afterWrite reg d c s).resp = s.resp := by
  simp [afterWrite]
@[simp] theorem afterWrite_inbox (reg : Word) (d : List Byte) (c : BusCall) : (afterWrite reg d c s).inbox = s.inbox := by
  simp [afterWrite]
@[simp] theorem afterWrite_transport (reg : Word) (d : List Byte) (c : BusCall) : (afterWrite reg d c s).transport = (s.transport.reply s.cfg s.free c).2 := by
  simp [afterWrite]
@[simp] theorem afterWrite_trace (reg : Word) (d : List Byte) (c : BusCall) : (afterWrite reg d c s).trace = s.trace ++ [⟨s.cfg.tSettle, c⟩] := by
  simp [afterWrite]

/-! ### The first reset -/

@[simp] theorem resetFor_cfg (c : Config) : (State.resetFor c).cfg = c := rfl
@[simp] theorem resetFor_calv (c : Config) : (State.resetFor c).calv = false := rfl
@[simp] theorem resetFor_init (c : Config) : (State.resetFor c).init = false := rfl
@[simp] theorem resetFor_resp (c : Config) : (State.resetFor c).resp = .idle := rfl
@[simp] theorem resetFor_inbox (c : Config) : (State.resetFor c).inbox = [] := rfl
@[simp] theorem resetFor_transport (c : Config) : (State.resetFor c).transport = .oracle [] := rfl
@[simp] theorem resetFor_trace (c : Config) : (State.resetFor c).trace = [] := rfl
@[simp] theorem resetFor_free (c : Config) : (State.resetFor c).free = 1 := rfl

end Sys2Proof.Machine
end

