-- ==== Sys2Proof/Laws/Ops.lean ====
section
/-! SUPPORT. What each shared operation can do, said once: responses, the transport's replies, the framer's tests and calls, and one
inversion lemma for an operation. -/

namespace Sys2Proof.Machine

/-! ### Responses -/

/-- An error's response clears results and payload (R195). -/
theorem errorResponse_cleared (e : ErrorCause) : (errorResponse e).r = {} ∧ (errorResponse e).obuf = [] ∧ (errorResponse e).status ≠ .ok := by
  cases e <;> simp [errorResponse]

/-- A response is legal unless it is the reserved `E_VERIFY` (R190). -/
theorem errorResponse_legal (n : Nat) (e : ErrorCause) (h : ∀ reg, e ≠ .verify reg) : (errorResponse e).Legal n := by
  cases e <;> constructor <;> simp_all [errorResponse]

theorem okResponse_legal (n : Nat) (r : Results) : (okResponse r).Legal n := by constructor <;> simp [okResponse]

theorem okBytes_legal (n : Nat) (v : List Byte) (h : v.length ≤ n) : (okBytes v).Legal n := by
  constructor <;> simp [okBytes, h]

/-! ### The transport -/

@[simp] theorem fillTo_length (n k : Nat) (bytes : List Byte) : (fillTo n k bytes).length = n := by simp [fillTo]

/-- An answer with the right number of bytes is delivered as it is. -/
theorem fillTo_eq (k : Nat) (bytes : List Byte) : fillTo bytes.length k bytes = bytes := by
  apply List.ext_getElem?
  intro i
  by_cases h : i < bytes.length <;> simp [fillTo, h]

theorem fillTo_of_length {n : Nat} (k : Nat) {bytes : List Byte} (h : bytes.length = n) : fillTo n k bytes = bytes := by
  subst h; exact fillTo_eq k bytes

@[simp] theorem shapeAnswer_silent_iff (c : BusCall) (k : Nat) (a : BusAnswer) : shapeAnswer c k a = .silent ↔ a = .silent := by
  cases a <;> cases c <;> simp [shapeAnswer]

@[simp] theorem shapeAnswer_fail_iff (c : BusCall) (k : Nat) (a : BusAnswer) : shapeAnswer c k a = .fail ↔ a = .fail := by
  cases a <;> cases c <;> simp [shapeAnswer]

theorem shapeAnswer_read_length {a7 : BusAddr} {q : List Byte} {n k : Nat} {a : BusAnswer} {bytes : List Byte}
    (h : shapeAnswer (.writeRead a7 q n) k a = .ok bytes) : bytes.length = n := by
  cases a <;> simp [shapeAnswer] at h
  rw [← h]; simp

theorem freeAnswer_not_silent (k : Nat) : freeAnswer k ≠ .silent := by unfold freeAnswer; split <;> simp

/-- A read's answer has the length its call asks for, whatever agent answers (R46). -/
theorem busAnswer_read_length {a7 : BusAddr} {q : List Byte} {n : Nat} {s : State} {bytes : List Byte}
    (h : busAnswer (.writeRead a7 q n) s = .ok bytes) : bytes.length = n := by
  unfold busAnswer at h
  match hs : s.transport with
  | .oracle [] => rw [hs] at h; exact shapeAnswer_read_length (a7 := a7) (q := q) h
  | .oracle (a :: rest) => rw [hs] at h; exact shapeAnswer_read_length (a7 := a7) (q := q) h
  | .loopback d => rw [hs] at h; exact shapeAnswer_read_length (a7 := a7) (q := q) h

theorem busAnswer_oracle {s : State} {a : BusAnswer} {rest : List BusAnswer} (h : s.transport = .oracle (a :: rest)) (c : BusCall) :
    busAnswer c s = shapeAnswer c s.free a := by simp [busAnswer, h, Transport.reply]

theorem afterCall_oracle {s : State} {a : BusAnswer} {rest : List BusAnswer} (h : s.transport = .oracle (a :: rest)) (c : BusCall) :
    (afterCall c s).transport = .oracle rest := by simp [h, Transport.reply]

/-- A script without `silent` never answers so, and stays such a script. -/
theorem reply_answers (cfg : Config) (k : Nat) (c : BusCall) (l : List BusAnswer) (h : BusAnswer.silent ∉ l) :
    (Transport.reply cfg k c (.oracle l)).1 ≠ .silent ∧
      ∃ l', (Transport.reply cfg k c (.oracle l)).2 = .oracle l' ∧ BusAnswer.silent ∉ l' := by
  cases l with
  | nil => exact ⟨by simpa [Transport.reply] using freeAnswer_not_silent k, [], rfl, by simp⟩
  | cons a l =>
    simp only [List.mem_cons, not_or] at h
    exact ⟨by simpa [Transport.reply] using Ne.symm h.1, l, rfl, h.2⟩

/-! ### The loopback device -/

theorem loopback_write_mem (cfg : Config) (d : Loopback) (a7 : BusAddr) (f : List Byte) :
    (d.busWrite cfg a7 f).2.mem = d.mem ∨
      ∃ reg body v, f = reg :: body ∧ (d.busWrite cfg a7 f).2.mem = d.mem.writeBytes reg 0 v ∧
        (v = body ∨ ∃ ps, pairsOf body = some ps ∧ v = ps.map Prod.fst) := by
  unfold Loopback.busWrite
  split
  · exact .inl rfl
  split
  · exact .inl rfl
  cases f with
  | nil => exact .inl rfl
  | cons reg body =>
    simp only
    split
    · split
      · exact .inl rfl
      · rename_i ps hps
        split
        · exact .inr ⟨reg, body, ps.map Prod.fst, rfl, rfl, .inr ⟨ps, hps, rfl⟩⟩
        · exact .inl rfl
    · exact .inr ⟨reg, body, body, rfl, rfl, .inl rfl⟩

theorem loopback_read_mem (cfg : Config) (d : Loopback) (a7 : BusAddr) (q : List Byte) (n : Nat) :
    (d.busWriteRead cfg a7 q n).2.mem = d.mem := by
  unfold Loopback.busWriteRead
  split
  · rfl
  split
  · rfl
  split <;> rfl

/-- Whatever call is made, the device's registers stay in canonical form. -/
theorem reply_canonical (cfg : Config) (k : Nat) (c : BusCall) (t : Transport) (h : t.canonical = true) :
    (t.reply cfg k c).2.canonical = true := by
  match t with
  | .oracle [] => rfl
  | .oracle (_ :: _) => rfl
  | .loopback d =>
    have hd : d.mem.wf = true := h
    cases c with
    | write a7 f =>
      show Memory.wf (d.busWrite cfg a7 f).2.mem = true
      rcases loopback_write_mem cfg d a7 f with h' | ⟨reg, body, v, -, h', -⟩
      · rw [h']; exact hd
      · rw [h']; exact memory_writeBytes_wf _ _ _ _ hd
    | writeRead a7 q n =>
      show Memory.wf (d.busWriteRead cfg a7 q n).2.mem = true
      rw [loopback_read_mem]; exact hd

/-! ### The framer's tests and calls -/

theorem wrregCall_some {cfg : Config} {reg : Word} {d : List Byte} {c : BusCall} (h : wrregCall cfg reg d = .ok (some c)) :
    reg.toNat ≤ 0xFF ∧ d ≠ [] ∧ d.length ≤ 8 ∧ c = .write cfg.devAddr (frameW cfg (lowByte reg) d) := by
  unfold wrregCall at h
  split at h
  · simp at h
  split at h
  · simp at h
  split at h
  · simp at h
  rename_i h1 h2 h3
  simp only [Except.ok.injEq, Option.some.injEq] at h
  exact ⟨by simpa using h1, by simpa using h2, by simpa [maxWr] using h3, h.symm⟩

theorem wrregCall_ok {cfg : Config} {reg : Word} {d : List Byte} (h1 : reg.toNat ≤ 0xFF) (h2 : 1 ≤ d.length) (h3 : d.length ≤ 8) :
    wrregCall cfg reg d = .ok (some (.write cfg.devAddr (frameW cfg (lowByte reg) d))) := by
  have : d ≠ [] := by rintro rfl; simp at h2
  simp [wrregCall, h1, this, maxWr, Nat.not_lt.mpr h3]

theorem rdregCall_some {cfg : Config} {reg n : Word} {c : BusCall} (h : rdregCall cfg reg n = .ok (some c)) :
    reg.toNat ≤ 0xFF ∧ 1 ≤ n.toNat ∧ n.toNat ≤ 2 * cfg.variant.channels ∧
      c = .writeRead cfg.devAddr [lowByte reg] (responseSize cfg n.toNat) := by
  unfold rdregCall at h
  split at h
  · simp at h
  split at h
  · simp at h
  split at h
  · simp at h
  rename_i h1 h2 h3
  simp only [Except.ok.injEq, Option.some.injEq] at h
  exact ⟨by simpa using h1, by omega, by simpa [Variant.maxRd] using h3, h.symm⟩

theorem rdregCall_ok {cfg : Config} {reg n : Word} (h1 : reg.toNat ≤ 0xFF) (h2 : 1 ≤ n.toNat)
    (h3 : n.toNat ≤ 2 * cfg.variant.channels) :
    rdregCall cfg reg n = .ok (some (.writeRead cfg.devAddr [lowByte reg] (responseSize cfg n.toNat))) := by
  have h4 : ¬ 2 * cfg.variant.channels < n.toNat := by omega
  have h5 : ¬ n.toNat = 0 := by omega
  simp only [rdregCall, Variant.maxRd, h4, h5, if_false, isByte_iff, h1, not_true_eq_false]

/-- The errors of the framer's tests. -/
theorem wrregCall_error {cfg : Config} {reg : Word} {d : List Byte} {e : ErrorCause} (h : wrregCall cfg reg d = .error e) :
    (e = .invariant ∧ 0xFF < reg.toNat) ∨ (e = .tooLarge ∧ reg.toNat ≤ 0xFF ∧ 8 < d.length) := by
  unfold wrregCall at h
  split at h
  · rename_i h1; simp only [Except.error.injEq] at h; exact .inl ⟨h.symm, by simpa using h1⟩
  split at h
  · simp at h
  split at h
  · rename_i h1 h2 h3; simp only [Except.error.injEq] at h; exact .inr ⟨h.symm, by simpa using h1, by simpa [maxWr] using h3⟩
  · simp at h

theorem rdregCall_error {cfg : Config} {reg n : Word} {e : ErrorCause} (h : rdregCall cfg reg n = .error e) :
    (e = .invariant ∧ 0xFF < reg.toNat) ∨ (e = .tooLarge ∧ reg.toNat ≤ 0xFF ∧ 2 * cfg.variant.channels < n.toNat) := by
  unfold rdregCall at h
  split at h
  · rename_i h1; simp only [Except.error.injEq] at h; exact .inl ⟨h.symm, by simpa using h1⟩
  split at h
  · simp at h
  split at h
  · rename_i h1 h2 h3; simp only [Except.error.injEq] at h
    exact .inr ⟨h.symm, by simpa using h1, by simpa [Variant.maxRd] using h3⟩
  · simp at h

/-! ### What `WRREG` and `RDREG` can do -/

/-- Everything a `WRREG` can do. -/
theorem execWrreg_cases (reg : Word) (d : List Byte) (s : State) :
    (∃ e, wrregCall s.cfg reg d = .error e ∧ execWrreg reg d s = .next (raise e s)) ∨
    (wrregCall s.cfg reg d = .ok none ∧ execWrreg reg d s = .next (respond {} s)) ∨
    ∃ c, wrregCall s.cfg reg d = .ok (some c) ∧
      ((busAnswer c s = .silent ∧ execWrreg reg d s = .fault .transportSilent) ∨
       (busAnswer c s = .fail ∧ execWrreg reg d s = .next (raise .bus (afterWrite reg d c s))) ∨
       ∃ bytes, busAnswer c s = .ok bytes ∧ execWrreg reg d s = .next (respond {} (afterWrite reg d c s))) := by
  unfold execWrreg
  match h : wrregCall s.cfg reg d with
  | .error e => exact .inl ⟨e, rfl, rfl⟩
  | .ok none => exact .inr (.inl ⟨rfl, rfl⟩)
  | .ok (some c) =>
    refine .inr (.inr ⟨c, rfl, ?_⟩)
    match hb : busAnswer c s with
    | .silent => exact .inl ⟨rfl, by simp [hb]⟩
    | .fail => exact .inr (.inl ⟨rfl, by simp [hb]⟩)
    | .ok bytes => exact .inr (.inr ⟨bytes, rfl, by simp [hb]⟩)

/-- Everything an `RDREG` can do. -/
theorem execRdreg_cases (reg n : Word) (s : State) :
    (∃ e, rdregCall s.cfg reg n = .error e ∧ execRdreg reg n s = .next (raise e s)) ∨
    (rdregCall s.cfg reg n = .ok none ∧ execRdreg reg n s = .next (respondBytes [] s)) ∨
    ∃ c, rdregCall s.cfg reg n = .ok (some c) ∧
      ((busAnswer c s = .silent ∧ execRdreg reg n s = .fault .transportSilent) ∨
       (busAnswer c s = .fail ∧ execRdreg reg n s = .next (raise .bus (afterCall c s))) ∨
       ∃ bytes, busAnswer c s = .ok bytes ∧ execRdreg reg n s = .next (deliver bytes (afterCall c s))) := by
  unfold execRdreg
  match h : rdregCall s.cfg reg n with
  | .error e => exact .inl ⟨e, rfl, rfl⟩
  | .ok none => exact .inr (.inl ⟨rfl, rfl⟩)
  | .ok (some c) =>
    refine .inr (.inr ⟨c, rfl, ?_⟩)
    match hb : busAnswer c s with
    | .silent => exact .inl ⟨rfl, by simp [hb]⟩
    | .fail => exact .inr (.inl ⟨rfl, by simp [hb]⟩)
    | .ok bytes => exact .inr (.inr ⟨bytes, rfl, by simp [hb]⟩)

/-- What `RDREG` makes of a response: the payload, or `E_CRC`; besides, only `CRCACC` and the counter can change. -/
theorem deliver_eq (bytes : List Byte) (s : State) :
    deliver bytes s = { noteGroups (checkedGroups s.cfg bytes) s with
      resp := match payloadOf s.cfg bytes with | some v => okBytes v | none => errorResponse .crc } := by
  unfold deliver
  cases payloadOf s.cfg bytes <;> rfl

@[simp] theorem deliver_cfg (b : List Byte) (s : State) : (deliver b s).cfg = s.cfg := by simp [deliver_eq]
@[simp] theorem deliver_gain (b : List Byte) (s : State) : (deliver b s).gain = s.gain := by simp [deliver_eq]
@[simp] theorem deliver_offset (b : List Byte) (s : State) : (deliver b s).offset = s.offset := by simp [deliver_eq]
@[simp] theorem deliver_calv (b : List Byte) (s : State) : (deliver b s).calv = s.calv := by simp [deliver_eq]
@[simp] theorem deliver_shunt (b : List Byte) (s : State) : (deliver b s).shunt = s.shunt := by simp [deliver_eq]
@[simp] theorem deliver_init (b : List Byte) (s : State) : (deliver b s).init = s.init := by simp [deliver_eq]
@[simp] theorem deliver_inbox (b : List Byte) (s : State) : (deliver b s).inbox = s.inbox := by simp [deliver_eq]
@[simp] theorem deliver_transport (b : List Byte) (s : State) : (deliver b s).transport = s.transport := by simp [deliver_eq]
@[simp] theorem deliver_trace (b : List Byte) (s : State) : (deliver b s).trace = s.trace := by simp [deliver_eq]

/-- A checksum-mode response of `n` pairs: either every CRC byte is the expected one and the payload is the `n` values, or one is
not and there is no payload (R98). -/
theorem checkR_cases (cfg : Config) (buf : List Byte) (n : Nat) (h : buf.length = 2 * n) :
    ∃ v : List Byte, v.length = n ∧ (∀ i : Nat, v[i]? = buf[2 * i]?) ∧
      ((checkR cfg buf = some v ∧ ∀ i < n, buf[2 * i + 1]? = some (expectedCrc cfg v i)) ∨
       (checkR cfg buf = none ∧ ∃ i < n, buf[2 * i + 1]? ≠ some (expectedCrc cfg v i))) := by
  obtain ⟨ps, h1, h2, h3⟩ := pairsOf_even buf n h
  refine ⟨ps.map Prod.fst, by simpa using h2, fun i => (h3 i).1, ?_⟩
  have hc : checkR cfg buf = checkPairs cfg ps := by simp [checkR, h1]
  rw [hc]
  rcases checkPairs_eq cfg ps with ⟨h4, h5⟩ | ⟨h4, i, hi, h5⟩
  · exact .inl ⟨h4, fun i hi => by rw [← (h3 i).2]; exact h5 i (h2 ▸ hi)⟩
  · exact .inr ⟨h4, i, h2 ▸ hi, by rw [← (h3 i).2]; exact h5⟩

end Sys2Proof.Machine
end

