-- ==== Sys2Proof/Laws/Exec.lean ====
section
/-! SUPPORT. What one operation can do, said once: it answers results or an error and nothing else, or it is `LDCAL` or `COMMIT` ending
`OK`, or an operation of the framer, whose cases Laws/Ops.lean gives. And which operation makes a call, and that the loopback device answers it. -/

namespace Sys2Proof.Machine

theorem respond_eq_finish (r : Results) (s : State) : respond r s = finish (.ok r) s := rfl

theorem raise_eq_finish (e : ErrorCause) (s : State) : raise e s = finish (.error e) s := rfl

/-- Every operation, by what it can do to the machine (R170, R195). -/
theorem exec_cases (i : Instr) (s : State) :
    (∃ x, exec i s = .next (finish x s)) ∨
    (∃ a b c, i = .ldcal a b c ∧ a.toNat ≤ 0xFF ∧ b.toNat ≤ 0xFF ∧ c.toNat ≤ 0xFF ∧
      exec i s = .next (respond { r0 := (calGain a c).setWidth 32, r1 := (calOffset b).signExtend 32 }
        (loadCal (calGain a c) (calOffset b) s))) ∨
    (∃ w, i = .commit w ∧ s.calv = true ∧ exec i s = .next (respond {} (commitShunt w s))) ∨
    (∃ buf, i = .crc8 buf) ∨ (∃ reg buf, i = .wrreg reg buf) ∨ ∃ reg n, i = .rdreg reg n := by
  cases i with
  | commit w =>
    by_cases hc : s.calv = true
    · exact .inr (.inr (.inl ⟨w, rfl, hc, if_pos hc⟩))
    · exact .inl ⟨.error .uninit, if_neg hc⟩
  | ldcal a b c =>
    by_cases hb : (isByte a && isByte b && isByte c) = true
    · have h := hb
      simp only [Bool.and_eq_true, isByte_iff] at h
      exact .inr (.inl ⟨a, b, c, rfl, h.1.1, h.1.2, h.2, if_pos hb⟩)
    · exact .inl ⟨.error .invariant, if_neg hb⟩
  | crc8 buf => exact .inr (.inr (.inr (.inl ⟨_, rfl⟩)))
  | wrreg reg buf => exact .inr (.inr (.inr (.inr (.inl ⟨_, _, rfl⟩))))
  | rdreg reg n => exact .inr (.inr (.inr (.inr (.inr ⟨_, _, rfl⟩))))
  | rdst => exact .inl ⟨.ok _, rfl⟩
  | scdthr amps shunt => exact .inl ⟨.ok _, rfl⟩
  | ocdthr amps shunt => exact .inl ⟨.ok _, rfl⟩
  | conv raw => exact .inl ⟨_, rfl⟩
  | uvwin => exact .inl ⟨_, rfl⟩
  | ovwin => exact .inl ⟨_, rfl⟩
  | uvenc target => exact .inl ⟨_, rfl⟩
  | ovenc target => exact .inl ⟨_, rfl⟩
  | uvdec code => exact .inl ⟨_, rfl⟩
  | ovdec code => exact .inl ⟨_, rfl⟩
  | scdbits thr range => exact .inl ⟨_, rfl⟩
  | ocdbits thr range => exact .inl ⟨_, rfl⟩
  | recon scd ocd => exact .inl ⟨_, rfl⟩
  | protcfg scd ocd shunt uv ov => exact .inl ⟨_, rfl⟩

/-- A run that takes a step goes on from the state after it. -/
theorem run_of_step {s t : State} (k : Nat) (h : step s = .next t) : Host.Core.run core (k + 1) s = Host.Core.run core k t := by
  have key : ∀ (M : Host.Core) (s t : M.State), M.step s = .next t → M.run (k + 1) s = M.run k t := by
    intro M s t h
    simp only [Host.Core.run, h]
  exact key core s t h

/-- The operations that make a call, and the call (R44). -/
theorem callOf_cases {cfg : Config} {i : Instr} {c : BusCall} (h : callOf cfg i = some c) :
    (∃ reg buf, i = .wrreg reg buf ∧ wrregCall cfg reg buf = .ok (some c)) ∨
    ∃ reg n, i = .rdreg reg n ∧ rdregCall cfg reg n = .ok (some c) := by
  cases i <;> simp only [callOf, reduceCtorEq] at h
  case wrreg reg buf =>
    refine .inl ⟨reg, buf, rfl, ?_⟩
    cases hw : wrregCall cfg reg buf with
    | error e => rw [hw] at h; cases h
    | ok x => rw [hw] at h; exact congrArg Except.ok h
  case rdreg reg n =>
    refine .inr ⟨reg, n, rfl, ?_⟩
    cases hr : rdregCall cfg reg n with
    | error e => rw [hr] at h; cases h
    | ok x => rw [hr] at h; exact congrArg Except.ok h

theorem callOf_wrreg {cfg : Config} {reg : Word} {buf : List Byte} {c : BusCall} (h : wrregCall cfg reg buf = .ok (some c)) :
    callOf cfg (.wrreg reg buf) = some c := by
  show (wrregCall cfg reg buf).toOption.join = some c
  rw [h]
  rfl

theorem callOf_rdreg {cfg : Config} {reg n : Word} {c : BusCall} (h : rdregCall cfg reg n = .ok (some c)) :
    callOf cfg (.rdreg reg n) = some c := by
  show (rdregCall cfg reg n).toOption.join = some c
  rw [h]
  rfl

/-- A frame starts with its register address (R63, R64). -/
theorem frameW_cons (cfg : Config) (reg : Byte) (d : List Byte) : ∃ body, frameW cfg reg d = reg :: body := by
  unfold frameW
  split <;> exact ⟨_, rfl⟩

/-- The loopback device answers every frame that has a first byte. -/
theorem loopback_write_answers (cfg : Config) (d : Loopback) (a7 : BusAddr) (reg : Byte) (body : List Byte) :
    (d.busWrite cfg a7 (reg :: body)).1 ≠ .silent := by
  unfold Loopback.busWrite
  split
  · simp
  split
  · simp
  simp only
  split
  · split
    · simp
    · split <;> simp
  · simp

/-- The loopback device answers every query of one byte. -/
theorem loopback_read_answers (cfg : Config) (d : Loopback) (a7 : BusAddr) (reg : Byte) (n : Nat) :
    (d.busWriteRead cfg a7 [reg] n).1 ≠ .silent := by
  unfold Loopback.busWriteRead
  split
  · simp
  split <;> simp

/-- The loopback device answers every call an operation makes. -/
theorem loopback_answers {cfg : Config} {i : Instr} {c : BusCall} (h : callOf cfg i = some c) (d : Loopback) :
    (d.answer cfg c).1 ≠ .silent := by
  rcases callOf_cases h with ⟨reg, buf, -, hw⟩ | ⟨reg, n, -, hr⟩
  · obtain ⟨-, -, -, rfl⟩ := wrregCall_some hw
    obtain ⟨body, hf⟩ := frameW_cons cfg (lowByte reg) buf
    simp only [Loopback.answer, hf]
    exact loopback_write_answers _ _ _ _ _
  · obtain ⟨-, -, -, rfl⟩ := rdregCall_some hr
    exact loopback_read_answers _ _ _ _ _

/-- An answer to a call an operation makes is `silent` only where the script says so (R179). -/
theorem busAnswer_silent_iff {s : State} {i : Instr} {c : BusCall} (h : callOf s.cfg i = some c) :
    busAnswer c s = .silent ↔ ∃ rest, s.transport = .oracle (.silent :: rest) := by
  unfold busAnswer
  match hs : s.transport with
  | .oracle [] => simp [Transport.reply, freeAnswer_not_silent]
  | .oracle (a :: rest) => simp [Transport.reply]
  | .loopback d => simp [Transport.reply, loopback_answers h d]

end Sys2Proof.Machine
end

