-- ==== Sys2Proof/Laws/PerInstr.lean ====
section
/-! SUPPORT. A law of the syntax, one lemma per operation: the encoder's opcode is the one of the operation's row in the opcode map, and
fields the row does not name are 0 (spec/30_encoding.md R62, R80). -/

namespace Sys2Proof.Laws.EncodeFollowsRow

/-- The request of an operation has the opcode of one row, and 0 in every operand field and buffer length that row does not name. -/
def Statement (i : Instr) : Prop :=
  ∃ row ∈ opcodeMap, row.op = (encode i).op ∧
    (row.operands ≤ 0 → (encode i).a0 = 0) ∧ (row.operands ≤ 1 → (encode i).a1 = 0) ∧
    (row.operands ≤ 2 → (encode i).a2 = 0) ∧ (row.operands ≤ 3 → (encode i).a3 = 0) ∧
    (row.operands ≤ 4 → (encode i).a4 = 0) ∧ (row.buffer = false → (encode i).ilen = 0)

theorem rdst : Statement .rdst := by simp [Statement, opcodeMap, encode, Request.blank]
theorem commit (shunt : Word) : Statement (.commit shunt) := by simp [Statement, opcodeMap, encode, Request.blank]
theorem crc8 (buf : List Byte) : Statement (.crc8 buf) := by simp [Statement, opcodeMap, encode, Request.blank, Request.withBuf]
theorem wrreg (reg : Word) (buf : List Byte) : Statement (.wrreg reg buf) := by
  simp [Statement, opcodeMap, encode, Request.blank, Request.withBuf]
theorem rdreg (reg n : Word) : Statement (.rdreg reg n) := by simp [Statement, opcodeMap, encode, Request.blank]
theorem ldcal (trim1 off trim2 : Word) : Statement (.ldcal trim1 off trim2) := by
  simp [Statement, opcodeMap, encode, Request.blank]
theorem conv (raw : Word) : Statement (.conv raw) := by simp [Statement, opcodeMap, encode, Request.blank]
theorem uvwin : Statement .uvwin := by simp [Statement, opcodeMap, encode, Request.blank]
theorem ovwin : Statement .ovwin := by simp [Statement, opcodeMap, encode, Request.blank]
theorem uvenc (target : Word) : Statement (.uvenc target) := by simp [Statement, opcodeMap, encode, Request.blank]
theorem ovenc (target : Word) : Statement (.ovenc target) := by simp [Statement, opcodeMap, encode, Request.blank]
theorem uvdec (code : Word) : Statement (.uvdec code) := by simp [Statement, opcodeMap, encode, Request.blank]
theorem ovdec (code : Word) : Statement (.ovdec code) := by simp [Statement, opcodeMap, encode, Request.blank]
theorem scdthr (amps shunt : Word) : Statement (.scdthr amps shunt) := by simp [Statement, opcodeMap, encode, Request.blank]
theorem ocdthr (amps shunt : Word) : Statement (.ocdthr amps shunt) := by simp [Statement, opcodeMap, encode, Request.blank]
theorem scdbits (thr range : Word) : Statement (.scdbits thr range) := by simp [Statement, opcodeMap, encode, Request.blank]
theorem ocdbits (thr range : Word) : Statement (.ocdbits thr range) := by simp [Statement, opcodeMap, encode, Request.blank]
theorem recon (scd ocd : Word) : Statement (.recon scd ocd) := by simp [Statement, opcodeMap, encode, Request.blank]
theorem protcfg (scd ocd shunt uv ov : Word) : Statement (.protcfg scd ocd shunt uv ov) := by
  simp [Statement, opcodeMap, encode, Request.blank]

end Sys2Proof.Laws.EncodeFollowsRow
end

