-- ==== Sys2Proof/Laws/Threshold.lean ====
section
/-! SUPPORT. The laws of the threshold tables: what the search finds, which codes a class has, and the range encoding
(spec/42_threshold.md R141 to R149). -/

namespace Sys2Proof.Machine

theorem table_first_mem (t : Table) : t.first ∈ t.entries := by simp [Table.entries]

theorem table_last_mem (t : Table) : t.last ∈ t.entries := by
  unfold Table.last Table.entries
  cases h : t.rest.getLast? with
  | none => simp
  | some e => exact List.mem_cons_of_mem _ (List.mem_of_getLast? h)

/-- In an ascending table the first entry is the lowest. -/
theorem table_first_le (t : Table) (h : t.entries.Pairwise fun a b => a.mv.toNat < b.mv.toNat) (e : Entry) (he : e ∈ t.entries) :
    t.first.mv.toNat ≤ e.mv.toNat := by
  rcases List.mem_cons.mp he with rfl | he
  · exact le_refl _
  · exact le_of_lt ((List.pairwise_cons.mp h).1 e he)

/-- In an ascending table the last entry is the highest. -/
theorem table_le_last (t : Table) (h : t.entries.Pairwise fun a b => a.mv.toNat < b.mv.toNat) (e : Entry) (he : e ∈ t.entries) :
    e.mv.toNat ≤ t.last.mv.toNat := by
  have gen : ∀ (l : List Entry) (x : Entry), (x :: l).Pairwise (fun a b => a.mv.toNat < b.mv.toNat) →
      ∀ y ∈ x :: l, y.mv.toNat ≤ (l.getLast?.getD x).mv.toNat := by
    intro l
    induction l with
    | nil => intro x _ y hy; simp at hy; subst hy; simp
    | cons z l ih =>
      intro x hp y hy
      obtain ⟨h1, h2⟩ := List.pairwise_cons.mp hp
      have hz := ih z h2
      have heq : ((z :: l).getLast?.getD x) = l.getLast?.getD z := by
        rw [List.getLast?_cons]; simp
      rw [heq]
      rcases List.mem_cons.mp hy with rfl | hy
      · exact le_trans (le_of_lt (h1 z (by simp))) (hz z (by simp))
      · exact hz y hy
  exact gen t.rest t.first h e he

/-- What the search of R146 finds in an ascending table: the lowest entry not below the drop, or the last one when all are below. -/
theorem fromCurrent_cases (t : Table) (amps shunt : Word) (h : t.entries.Pairwise fun a b => a.mv.toNat < b.mv.toNat) :
    fromCurrent t amps shunt ∈ t.entries ∧
    ((dropMv amps shunt ≤ (fromCurrent t amps shunt).mv.toNat ∧
        ∀ e ∈ t.entries, dropMv amps shunt ≤ e.mv.toNat → (fromCurrent t amps shunt).mv.toNat ≤ e.mv.toNat) ∨
     (fromCurrent t amps shunt = t.last ∧ ∀ e ∈ t.entries, e.mv.toNat < dropMv amps shunt)) := by
  unfold fromCurrent
  cases hf : t.entries.find? fun e => decide (dropMv amps shunt ≤ e.mv.toNat) with
  | none =>
    refine ⟨table_last_mem t, .inr ⟨rfl, fun e he => ?_⟩⟩
    simpa using List.find?_eq_none.mp hf e he
  | some e =>
    refine ⟨List.mem_of_find?_eq_some hf, .inl ⟨by simpa using List.find?_some hf, fun x hx hd => ?_⟩⟩
    obtain ⟨-, as, bs, hl, has⟩ := List.find?_eq_some_iff_append.mp hf
    rw [hl] at hx h
    rcases List.mem_append.mp hx with hx | hx
    · exact absurd hd (by simpa using has x hx)
    · rcases List.mem_cons.mp hx with rfl | hx
      · exact le_refl _
      · exact le_of_lt ((List.pairwise_cons.mp (List.pairwise_append.mp h).2.1).1 x hx)

/-- In an ascending table a millivolt value names one entry (R74). -/
theorem table_mv_unique (t : Table) (h : t.entries.Pairwise fun a b => a.mv.toNat < b.mv.toNat) {e e' : Entry}
    (he : e ∈ t.entries) (he' : e' ∈ t.entries) (heq : e.mv.toNat = e'.mv.toNat) : e = e' := by
  have hn : (t.entries.map fun x : Entry => x.mv.toNat).Nodup := List.pairwise_map.mpr (h.imp fun hab => Nat.ne_of_lt hab)
  exact List.inj_on_of_nodup_map hn he he' heq

theorem table_find_mv (t : Table) (h : t.entries.Pairwise fun a b => a.mv.toNat < b.mv.toNat) {e : Entry} (he : e ∈ t.entries) :
    (t.entries.find? fun x => decide (x.mv = e.mv)) = some e := by
  cases hf : t.entries.find? fun x => decide (x.mv = e.mv) with
  | none => exact absurd (List.find?_eq_none.mp hf e he) (by simp)
  | some x =>
    have hx : x.mv = e.mv := by simpa using List.find?_some hf
    rw [table_mv_unique t h (List.mem_of_find?_eq_some hf) he (by rw [hx])]

/-- The class of an entry by its codes (R144). -/
theorem rangeOf_eq (e : Entry) : rangeOf e = if e.up = none then .lower else if e.lo = none then .upper else .unknown := by
  cases hu : e.up <;> cases hl : e.lo <;> simp [rangeOf, hu, hl]

/-- Codes of an entry of a well-formed table have the table's width (W3). -/
theorem table_lo_lt {k : Nat} {t : Table} (h : t.wf k) {e : Entry} (he : e ∈ t.entries) {c : Nat} (hc : e.lo = some c) : c < 2 ^ k :=
  h.2.2.1 c (List.mem_filterMap.mpr ⟨e, he, hc⟩)

theorem table_up_lt {k : Nat} {t : Table} (h : t.wf k) {e : Entry} (he : e ∈ t.entries) {c : Nat} (hc : e.up = some c) : c < 2 ^ k :=
  h.2.2.2.1 c (List.mem_filterMap.mpr ⟨e, he, hc⟩)

/-- A resolved range has a code for an entry of a class that allows it (R149). -/
theorem bitsOf_isSome {e : Entry} (h : e.lo ≠ none ∨ e.up ≠ none) {r : Range} (hr : r ≠ .unknown)
    (hc : rangeOf e = r ∨ rangeOf e = .unknown) : (bitsOf e r).isSome = true := by
  cases hu : e.up <;> cases hl : e.lo <;> cases r <;> simp_all [rangeOf, bitsOf]

/-- What `reconcile` gives: never `Unknown`, and each class is the resolved one or `Unknown` (R148). -/
theorem reconcile_some {a b r : Range} (h : reconcile a b = some r) :
    r ≠ .unknown ∧ (a = r ∨ a = .unknown) ∧ (b = r ∨ b = .unknown) := by
  cases a <;> cases b <;> simp [reconcile] at h <;> subst h <;> simp

@[simp] theorem encodeRange_lower : encodeRange .lower = 0 := rfl
@[simp] theorem encodeRange_upper : encodeRange .upper = 1 := rfl
@[simp] theorem encodeRange_unknown : encodeRange .unknown = 2 := rfl

/-- The range encoding round-trips (R18, R75). -/
theorem decodeRange_encodeRange (r : Range) : decodeRange (encodeRange r) = some r := by cases r <;> rfl

theorem decodeRange_eq (w : Word) :
    decodeRange w = if w = 0 then some .lower else if w = 1 then some .upper else if w = 2 then some .unknown else none := by
  have h0 : w = 0 ↔ w.toNat = 0 := ⟨fun h => by rw [h]; rfl, fun h => BitVec.eq_of_toNat_eq h⟩
  have h1 : w = 1 ↔ w.toNat = 1 := ⟨fun h => by rw [h]; rfl, fun h => BitVec.eq_of_toNat_eq h⟩
  have h2 : w = 2 ↔ w.toNat = 2 := ⟨fun h => by rw [h]; rfl, fun h => BitVec.eq_of_toNat_eq h⟩
  unfold decodeRange
  simp only [h0, h1, h2]
  split <;> simp_all

theorem decodeResolvedRange_eq (w : Word) :
    decodeResolvedRange w = if w = 0 then some .lower else if w = 1 then some .upper else none := by
  have h0 : w = 0 ↔ w.toNat = 0 := ⟨fun h => by rw [h]; rfl, fun h => BitVec.eq_of_toNat_eq h⟩
  have h1 : w = 1 ↔ w.toNat = 1 := ⟨fun h => by rw [h]; rfl, fun h => BitVec.eq_of_toNat_eq h⟩
  unfold decodeResolvedRange
  simp only [h0, h1]
  split <;> simp_all

end Sys2Proof.Machine
end

