-- ==== Sys2Proof/Machine/RegisterMap.lean ====
section
/-! DEFINITION. The register map of the device, as far as the spec gives it (spec/20_memory.md R41). No operation depends on it:
`reg` is always an operand, and no address is special to the block (R49, R102). -/

namespace Sys2Proof.Machine

/-- The named device registers of R41, in its order: each is one address, or the block of consecutive addresses its row names. -/
inductive DeviceReg where
  | status
  | balancing
  | sysCtrl1
  | sysCtrl2
  | protect1
  | protect2
  | protect3
  | ovTrip
  | uvTrip
  | ccConfig
  | cellBlock
  | packVoltage
  | temperature
  | coulombCounter
  | gainTrim1
  | offsetTrim
  | gainTrim2
deriving DecidableEq, Repr

/-- The address of a device register, of several addresses the first (R41, D16). -/
def DeviceReg.addr : DeviceReg → Byte
  | .status => 0x00
  | .balancing => 0x01
  | .sysCtrl1 => 0x04
  | .sysCtrl2 => 0x05
  | .protect1 => 0x06
  | .protect2 => 0x07
  | .protect3 => 0x08
  | .ovTrip => 0x09
  | .uvTrip => 0x0A
  | .ccConfig => 0x0B
  | .cellBlock => 0x0C
  | .packVoltage => 0x2A
  | .temperature => 0x2C
  | .coulombCounter => 0x32
  | .gainTrim1 => 0x50
  | .offsetTrim => 0x51
  | .gainTrim2 => 0x59

/-- How many addresses a device register takes: two for pack voltage (0x2A-0x2B), temperature (0x2C-0x2D) and coulomb counter
(0x32-0x33), two a channel for the cell-voltage block, else one (R41). -/
def DeviceReg.bytes (v : Variant) : DeviceReg → Nat
  | .cellBlock => 2 * v.channels
  | .packVoltage => 2
  | .temperature => 2
  | .coulombCounter => 2
  | .status => 1
  | .balancing => 1
  | .sysCtrl1 => 1
  | .sysCtrl2 => 1
  | .protect1 => 1
  | .protect2 => 1
  | .protect3 => 1
  | .ovTrip => 1
  | .uvTrip => 1
  | .ccConfig => 1
  | .gainTrim1 => 1
  | .offsetTrim => 1
  | .gainTrim2 => 1

/-- The last address of a device register (R41). -/
def DeviceReg.last (v : Variant) (r : DeviceReg) : Nat := r.addr.toNat + r.bytes v - 1

/-- The addresses of a device register, in rising order (R41). -/
def DeviceReg.addrs (v : Variant) (r : DeviceReg) : List Nat := (List.range (r.bytes v)).map (r.addr.toNat + ·)

/-- The last address of the cell-voltage block: two bytes a channel (R41). -/
def cellBlockEnd (v : Variant) : Nat := DeviceReg.cellBlock.last v

/-- "The six contiguous protection registers", 0x06 to 0x0B (R41). -/
def protectionRegs : List DeviceReg := [.protect1, .protect2, .protect3, .ovTrip, .uvTrip, .ccConfig]

end Sys2Proof.Machine
end

