-- ==== Sys2Proof/Tests/Slice0.lean ====
section
/-! SUPPORT. Tests. Expected values are the spec's: the examples of the operation rules and the vectors of
spec/95_test_vectors.md. Each `witness_<Name>` shows a state and operands that meet the hypotheses of `Obligations.<Name>`. -/

namespace Sys2Proof.Tests

open Sys2Proof.Machine Sys2Proof.Claims

/-! ### States -/

/-- A block in the Calibrated state with the gain and the offset given, `DEV_ADDR` 0x08, checksum mode, 5 channels. -/
def calibrated (g : BitVec 16) (o : BitVec 8) : State :=
  { State.reset with gain := g, offset := o, calv := true, shunt := 0, crcacc := 0 }

/-- The same block in the Initialized state, with a shunt of 667 micro-ohms. -/
def live (g : BitVec 16) (o : BitVec 8) : State := { calibrated g o with shunt := 667, init := true }

/-- The source's fixture calibration: gain 378, offset 43 (spec/95_test_vectors.md 1.1). -/
def fixture : State := live 378 43

/-- The fixture behind a transport that gives these answers. -/
def scripted (answers : List BusAnswer) : State := { fixture with transport := .oracle answers }

/-- The fixture in plain mode, behind a transport that gives these answers. -/
def plain (answers : List BusAnswer) : State :=
  { scripted answers with cfg := { Config.testVector with crcEn := false } }

/-- The loopback device at the block's address with no register written. -/
def blankDevice : Loopback := ⟨0x08, true, [], false, none⟩

/-- A state with one request on the port. -/
def requesting (s : State) (i : Instr) : State := { s with inbox := [.request (encode i)] }

/-- The state after an outcome, where there is one. -/
def after : Host.Outcome State Fault Refusal → Option State
  | .next t => some t
  | .fault _ => none
  | .refused _ => none

/-- The response to one request, through a whole step. -/
def answer (s : State) (i : Instr) : Option Response := (after (step (requesting s i))).map State.resp

/-- The transport calls of one request, through a whole step. -/
def calls (s : State) (i : Instr) : Option (List BusCall) :=
  (after (step (requesting s i))).map fun t => t.trace.map Transaction.call

/-! ### Well-formed operations: what no request can carry is refused -/

theorem test_wf_crc8_31_bytes : (Instr.crc8 (List.replicate 31 0)).wf = true := by decide
theorem test_wf_refuses_crc8_32_bytes : (Instr.crc8 (List.replicate 32 0)).wf = false := by decide
theorem test_wf_refuses_wrreg_32_bytes : (Instr.wrreg 0 (List.replicate 32 0)).wf = false := by decide

/-! ### Tables and device registers -/

theorem test_default_tables_wf : Config.testVector.wf := by decide +kernel

/-- R142: the Lower and the Upper range in code order. -/
theorem test_default_scd_ranges :
    (defaultTblScd.entries.filter fun e => e.lo.isSome).map (fun e => e.mv.toNat) = [22, 33, 44, 56, 67, 78, 89, 100] ∧
    (defaultTblScd.entries.filter fun e => e.up.isSome).map (fun e => e.mv.toNat) = [44, 67, 89, 111, 133, 155, 178, 200] ∧
    defaultTblScd.loCodes = List.range 8 ∧ defaultTblScd.upCodes = List.range 8 := by decide

/-- R143: the Lower and the Upper range in code order. -/
theorem test_default_ocd_ranges :
    (defaultTblOcd.entries.filter fun e => e.lo.isSome).map (fun e => e.mv.toNat) =
      [8, 11, 14, 17, 19, 22, 25, 28, 31, 33, 36, 39, 42, 44, 47, 50] ∧
    (defaultTblOcd.entries.filter fun e => e.up.isSome).map (fun e => e.mv.toNat) =
      [17, 22, 28, 33, 39, 44, 50, 56, 61, 67, 72, 78, 83, 89, 94, 100] ∧
    defaultTblOcd.loCodes = List.range 16 ∧ defaultTblOcd.upCodes = List.range 16 := by decide

theorem test_table_wf_refuses_descending : ¬ Table.wf 3 ⟨⟨33, some 0, some 0⟩, [⟨22, some 1, none⟩]⟩ := by decide
theorem test_table_wf_refuses_code_twice : ¬ Table.wf 3 ⟨⟨22, some 0, some 0⟩, [⟨33, some 0, none⟩]⟩ := by decide
theorem test_memory_wf_refuses_blank_entry : Memory.wf [(4, 0x00)] = false := by decide
theorem test_memory_write_blank_removes : Memory.write [(4, 0x19)] 4 0x00 = [] := by decide

/-- R41: the two-byte registers and the end of the cell-voltage block of each variant. -/
theorem test_register_spans :
    DeviceReg.packVoltage.addrs .five = [0x2A, 0x2B] ∧ DeviceReg.temperature.addrs .five = [0x2C, 0x2D] ∧
    DeviceReg.coulombCounter.addrs .five = [0x32, 0x33] ∧ [Variant.five, .ten, .fifteen].map cellBlockEnd = [0x15, 0x1F, 0x29] ∧
    protectionRegs.flatMap (DeviceReg.addrs .five) = [0x06, 0x07, 0x08, 0x09, 0x0A, 0x0B] := by decide

/-! ### Decoding: one word for every constructor, its fields placed by R60 in the layout of log 5 -/

theorem test_decode_rdst : decodeTableWord 8 0x00 = some .rdst := by decide +kernel
theorem test_decode_commit : decodeTableWord 40 (0x01 + 0x29B * 2 ^ 8) = some (.commit 667) := by decide +kernel
theorem test_decode_crc8 :
    decodeTableWord 197 (0x10 + 3 * 2 ^ 168 + 0x10 * 2 ^ 173 + 0x04 * 2 ^ 181 + 0x19 * 2 ^ 189) =
      some (.crc8 [0x10, 0x04, 0x19]) := by decide +kernel
theorem test_decode_wrreg :
    decodeTableWord 189 (0x11 + 0x09 * 2 ^ 8 + 2 * 2 ^ 168 + 0xAB * 2 ^ 173 + 0x43 * 2 ^ 181) =
      some (.wrreg 0x09 [0xAB, 0x43]) := by decide +kernel
theorem test_decode_rdreg : decodeTableWord 72 (0x12 + 0x50 * 2 ^ 8 + 2 * 2 ^ 40) = some (.rdreg 0x50 2) := by
  decide +kernel
theorem test_decode_ldcal :
    decodeTableWord 104 (0x20 + 0x15 * 2 ^ 8 + 0x2B * 2 ^ 40 + 0xA3 * 2 ^ 72) = some (.ldcal 0x15 0x2B 0xA3) := by
  decide +kernel
theorem test_decode_conv : decodeTableWord 40 (0x21 + 6000 * 2 ^ 8) = some (.conv 6000) := by decide +kernel
theorem test_decode_uvwin : decodeTableWord 8 0x22 = some .uvwin := by decide +kernel
theorem test_decode_ovwin : decodeTableWord 8 0x23 = some .ovwin := by decide +kernel
theorem test_decode_uvenc : decodeTableWord 40 (0x24 + 2000 * 2 ^ 8) = some (.uvenc 2000) := by decide +kernel
theorem test_decode_ovenc : decodeTableWord 40 (0x25 + 4175 * 2 ^ 8) = some (.ovenc 4175) := by decide +kernel
theorem test_decode_uvdec : decodeTableWord 40 (0x26 + 0x43 * 2 ^ 8) = some (.uvdec 0x43) := by decide +kernel
theorem test_decode_ovdec : decodeTableWord 40 (0x27 + 0xAB * 2 ^ 8) = some (.ovdec 0xAB) := by decide +kernel
theorem test_decode_scdthr : decodeTableWord 72 (0x30 + 200 * 2 ^ 8 + 667 * 2 ^ 40) = some (.scdthr 200 667) := by
  decide +kernel
theorem test_decode_ocdthr : decodeTableWord 72 (0x31 + 100 * 2 ^ 8 + 667 * 2 ^ 40) = some (.ocdthr 100 667) := by
  decide +kernel
theorem test_decode_scdbits : decodeTableWord 72 (0x32 + 133 * 2 ^ 8 + 1 * 2 ^ 40) = some (.scdbits 133 1) := by
  decide +kernel
theorem test_decode_ocdbits : decodeTableWord 72 (0x33 + 67 * 2 ^ 8 + 1 * 2 ^ 40) = some (.ocdbits 67 1) := by
  decide +kernel
theorem test_decode_recon : decodeTableWord 72 (0x34 + 1 * 2 ^ 8 + 2 * 2 ^ 40) = some (.recon 1 2) := by decide +kernel
theorem test_decode_protcfg :
    decodeTableWord 168 (0x35 + 200 * 2 ^ 8 + 100 * 2 ^ 40 + 667 * 2 ^ 72 + 2000 * 2 ^ 104 + 4175 * 2 ^ 136) =
      some (.protcfg 200 100 667 2000 4175) := by decide +kernel
theorem test_decode_refuses_reserved : decodeTableWord 8 0x02 = none ∧ decodeTableWord 8 0x36 = none := by decide +kernel

/-- The first step from reset with a request in place runs it. -/
theorem test_first_step_runs_the_request :
    (after (step (State.reset.withFetchWord 104 (0x20 + 0x15 * 2 ^ 8 + 0x2B * 2 ^ 40 + 0xA3 * 2 ^ 72)))).map
      (fun t => (t.gain, t.offset, t.calv, t.inbox)) = some (378, 43, true, []) := by decide +kernel

/-! ### Control -/

/-- R171: after reset the guarded registers read as 0. -/
theorem test_rdst_after_reset : answer State.reset .rdst = some (answerOk { r3 := 4, r4 := 8, r5 := 5 }) := by decide +kernel

/-- R171: its example. -/
theorem test_rdst_initialized :
    answer fixture .rdst = some (answerOk { r0 := 378, r1 := 43, r2 := 667, r3 := 7, r4 := 8, r5 := 5 }) := by decide +kernel

theorem test_commit_writes :
    (after (step (requesting (calibrated 378 43) (.commit 667)))).map (fun t => (t.shunt, t.init)) = some (667, true) := by
  decide +kernel
theorem test_commit_needs_calibration : answer State.reset (.commit 667) = some (answerError .eUninit) := by decide +kernel

/-! ### Framer -/

theorem test_crc8_nine_digits :
    answer fixture (.crc8 [0x31, 0x32, 0x33, 0x34, 0x35, 0x36, 0x37, 0x38, 0x39]) = some (answerOk { r0 := 0xF4 }) := by
  decide +kernel
theorem test_crc8_covers_every_byte : answer fixture (.crc8 [0x10, 0x04, 0x19]) = some (answerOk { r0 := 0xB9 }) := by
  decide +kernel
theorem test_wrreg_frame :
    calls (scripted [.ok []]) (.wrreg 0x09 [0xAB, 0x43]) = some [.write 0x08 [0x09, 0xAB, 0x47, 0x43, 0xCE]] := by
  decide +kernel
theorem test_wrreg_reserved_before_length : answer fixture (.wrreg 0x100 []) = some (answerError .eInvariant) := by
  decide +kernel
theorem test_rdreg_verified :
    answer (scripted [.ok [0x15, 0x29, 0x2B, 0xD1]]) (.rdreg 0x50 2) = some ⟨.ok, 0, 0, 0, {}, [0x15, 0x2B]⟩ := by
  decide +kernel
theorem test_rdreg_last_crc_corrupted :
    answer (scripted [.ok [0x15, 0x29, 0x2B, 0xD0]]) (.rdreg 0x50 2) = some (answerError .eCrc) := by decide +kernel

/-! ### Scaler -/

theorem test_ldcal_fixture : answer State.reset (.ldcal 0x15 0x2B 0xA3) = some (answerOk { r0 := 378, r1 := 43 }) := by
  decide +kernel
theorem test_ldcal_negative_offset :
    answer State.reset (.ldcal 0x04 0x80 0x20) = some (answerOk { r0 := 374, r1 := 0xFFFFFF80 }) := by decide +kernel
theorem test_conv_negative_refused : answer (live 365 0xFF) (.conv 0) = some (answerError .eInvariant) := by decide +kernel
theorem test_conv_truncates_toward_zero : answer (live 365 0xFF) (.conv 1) = some (answerOk { r0 := 0 }) := by decide +kernel
theorem test_uvwin : answer (calibrated 365 0x80) .uvwin = some (answerOk { r0 := 1367, r1 := 2856 }) := by decide +kernel
theorem test_ovwin : answer (calibrated 396 0x7F) .ovwin = some (answerOk { r0 := 3374, r1 := 4989 }) := by decide +kernel
theorem test_uvenc : answer fixture (.uvenc 2000) = some (answerOk { r0 := 0x43, r1 := 1996 }) := by decide +kernel
theorem test_uvenc_wrap : answer fixture (.uvenc 1591) = some (answerOk { r0 := 0xFF, r1 := 3133 }) := by decide +kernel
theorem test_ovenc : answer fixture (.ovenc 4175) = some (answerOk { r0 := 0xAB, r1 := 4176 }) := by decide +kernel
theorem test_ovenc_outside : answer fixture (.ovenc 4685) = some (answerWindow 3142 4684 1) := by decide +kernel
theorem test_uvdec : answer fixture (.uvdec 0x43) = some (answerOk { r0 := 1996 }) := by decide +kernel
theorem test_uvdec_reserved_before_flag : answer State.reset (.uvdec 0x100) = some (answerError .eInvariant) := by
  decide +kernel
theorem test_ovdec : answer fixture (.ovdec 0xAB) = some (answerOk { r0 := 4176 }) := by decide +kernel
theorem test_ovdec_needs_calibration : answer State.reset (.ovdec 0) = some (answerError .eUninit) := by decide +kernel

/-! ### Threshold encoder -/

theorem test_scdthr_full_product :
    answer State.reset (.scdthr 0xFFFFFFFF 0xFFFFFFFF) = some (answerOk { r0 := 200, r1 := 1 }) := by decide +kernel
theorem test_scdthr_both_ranges : answer State.reset (.scdthr 22 1999) = some (answerOk { r0 := 44, r1 := 2 }) := by
  decide +kernel
theorem test_ocdthr_rounds_up : answer State.reset (.ocdthr 100 667) = some (answerOk { r0 := 67, r1 := 1 }) := by
  decide +kernel
theorem test_ocdthr_lowest : answer State.reset (.ocdthr 0 667) = some (answerOk { r0 := 8, r1 := 0 }) := by decide +kernel
theorem test_scdbits_lower : answer State.reset (.scdbits 44 0) = some (answerOk { r0 := 2 }) := by decide +kernel
theorem test_scdbits_no_code : answer State.reset (.scdbits 133 0) = some (answerError .eInvariant) := by decide +kernel
theorem test_ocdbits_upper : answer State.reset (.ocdbits 22 1) = some (answerOk { r0 := 1 }) := by decide +kernel
theorem test_ocdbits_unknown_range : answer State.reset (.ocdbits 22 2) = some (answerError .eInvariant) := by decide +kernel
theorem test_recon_both_unknown : answer State.reset (.recon 2 2) = some (answerOk { r0 := 0 }) := by decide +kernel
theorem test_recon_mismatch : answer State.reset (.recon 1 0) = some (answerError .eRange) := by decide +kernel
theorem test_protcfg_fixture :
    answer fixture (.protcfg 200 100 667 2000 4175) =
      some (answerOk { r0 := 1, r1 := 4, r2 := 9, r3 := 0x43, r4 := 0xAB, r5 := 133, r6 := 67, r7 := 1996, r8 := 4176 }) := by
  decide +kernel

/-- R155: the ranges are tested before the targets. -/
theorem test_protcfg_ranges_first : answer fixture (.protcfg 200 12 667 0 0) = some (answerError .eRange) := by
  decide +kernel

/-! ### Witnesses: encoding and steps -/

theorem witness_EncodeThenDecodeGivesTheOperation : (Instr.wrreg 0xFFFFFFFF (List.replicate 31 0xA5)).wf = true := by decide

theorem witness_DecodeThenEncodeKeepsEveryNamedField :
    decode (encode (.protcfg 1 2 3 4 5)) = some (.protcfg 1 2 3 4 5) := by decide +kernel

/-- Two requests of `COMMIT` that differ in fields the operation does not name. -/
theorem witness_FieldsNotNamedAreIgnored :
    (⟨0x01, "COMMIT", 1, false⟩ : OpcodeRow) ∈ opcodeMap ∧ (encode (.commit 667)).op = 0x01 ∧
    ({ encode (.commit 667) with a1 := 9, ilen := 31 } : Request).a0 = (encode (.commit 667)).a0 ∧
    ({ encode (.commit 667) with a1 := 9, ilen := 31 } : Request) ≠ encode (.commit 667) := by decide +kernel

theorem witness_ReservedOpcodePerformsNothing :
    ∀ row ∈ opcodeMap, row.op ≠ (Request.blank 0x02).op ∧ row.op ≠ (Request.blank 0xFF).op := by decide

theorem witness_StepRunsTheDecodedOperation :
    (requesting fixture .uvwin).inbox = .request (encode .uvwin) :: [] ∧ decode (encode .uvwin) = some .uvwin := by
  decide +kernel

theorem witness_StepWithoutARequestWaits : fixture.inbox = [] := by decide +kernel

theorem witness_ResetSetsFlagsAndResultsAndKeepsTheRest :
    ({ fixture with inbox := [.reset, .request (encode .rdst)] } : State).inbox = .reset :: [.request (encode .rdst)] := rfl

theorem witness_ResetMeetsTheInvariant : Config.testVector.wf := test_default_tables_wf

/-- A reset with a request behind it, and one during a `WRREG` whose call was under way. -/
theorem witness_ResetDuringAnOperationAbandonsIt :
    (after (step { scripted [.fail] with inbox := [.resetDuring (encode (.wrreg 4 [0x19])) true] })).map
        (fun t => (t.calv, t.init, t.trace.map Transaction.call, t.transport)) =
      some (false, false, [.write 0x08 [0x04, 0x19, 0xB9]], .oracle []) ∧
    (after (step { fixture with inbox := [.reset, .request (encode .rdst)] })).map (fun t => (t.calv, t.inbox)) =
      some (false, [.request (encode .rdst)]) := by decide +kernel

/-- A calibrated block meets the invariant and takes a step. -/
theorem witness_EveryStepKeepsTheInvariant :
    (requesting fixture (.uvenc 2000)).Inv ∧ ∃ t, step (requesting fixture (.uvenc 2000)) = .next t :=
  ⟨⟨test_default_tables_wf, fun _ => by decide +kernel, fun _ => rfl, by constructor <;> decide +kernel, rfl⟩, _, rfl⟩

theorem witness_NoStepWritesTheConfiguration : ∃ t, step (requesting fixture (.commit 1)) = .next t := ⟨_, rfl⟩

theorem witness_EveryRunGoesOnWhileTheTransportAnswers :
    Answers (scripted [.fail, .ok [1]]).transport ∧ Answers (scripted []).transport ∧ Answers (.loopback blankDevice) := by
  simp [Answers, scripted]

theorem witness_OnlyASilentTransportStopsAnOperation :
    callOf (scripted [.silent]).cfg (.rdreg 0x50 2) = some (.writeRead 0x08 [0x50] 4) ∧
    (scripted [.silent]).transport = .oracle (.silent :: []) ∧
    busAnswer (.writeRead 0x08 [0x50] 4) (scripted [.silent]) = .silent := by decide +kernel

/-- A read whose call fails and a write whose call succeeds, against the fixture; a read the script fails. -/
theorem witness_AnsweredCallEndsTheOperation :
    callOf fixture.cfg (.rdreg 0x50 2) = some (.writeRead 0x08 [0x50] 4) ∧
    busAnswer (.writeRead 0x08 [0x50] 4) { fixture with transport := .loopback { blankDevice with failNext := true } } = .fail ∧
    answer { fixture with transport := .loopback { blankDevice with failNext := true } } (.rdreg 0x50 2) =
      some (answerError .eBus) ∧
    callOf fixture.cfg (.wrreg 4 [0x19]) = some (.write 0x08 [0x04, 0x19, 0xB9]) ∧
    busAnswer (.write 0x08 [0x04, 0x19, 0xB9]) { fixture with transport := .loopback blankDevice } = .ok [] ∧
    busAnswer (.writeRead 0x08 [0x50] 4) (scripted [.fail]) = .fail := by decide +kernel

/-- Two blocks in the Reset state with different registers behind the flags. -/
theorem witness_UnwrittenRegistersCannotBeObserved :
    (State.reset.init = true → State.reset.calv = true) ∧
    Alike { State.reset with gain := 1, shunt := 1, crcacc := 1 } { State.reset with gain := 2, shunt := 2, crcacc := 2 } :=
  ⟨fun h => (nomatch h), by constructor <;> first | rfl | exact fun h => (nomatch h)⟩

/-! ### Witnesses: rules over all operations -/

theorem witness_OnlyLdcalAndCommitWritePersistentState :
    (∃ t, exec (.conv 6000) fixture = .next t) ∧ (∀ a b c, Instr.conv 6000 ≠ .ldcal a b c) ∧ ∀ w, Instr.conv 6000 ≠ .commit w :=
  ⟨⟨_, rfl⟩, fun _ _ _ => by simp, fun _ => by simp⟩

/-- An operation that ends in an error with information, and one without. -/
theorem witness_ErrorsClearResultsAndKeepPersistentState :
    (after (exec (.uvenc 1590) fixture)).map State.resp = some (answerWindow 1591 3133 0) ∧
    (after (exec (.recon 0 1) fixture)).map State.resp = some (answerError .eRange) := by decide +kernel

theorem witness_ResultsNotNamedAreZero :
    (after (exec .uvwin fixture)).map State.resp = some (answerOk { r0 := 1591, r1 := 3133 }) ∧
    (∀ reg n, Instr.uvwin ≠ .rdreg reg n) := ⟨by decide +kernel, fun _ _ => by simp⟩

theorem witness_UninitErrorExactlyWhereAFlagIsMissing :
    (after (exec (.conv 0x3FFF) (calibrated 378 43))).map State.resp = some (answerError .eUninit) ∧
    (after (exec (.conv 0x4000) (calibrated 378 43))).map State.resp = some (answerError .eInvariant) := by decide +kernel

/-- The first reserved value of every operand that has reserved values. -/
theorem witness_ReservedOperandIsRefusedFirst :
    ReservedOperand Config.testVector (.wrreg 0x100 []) ∧ ReservedOperand Config.testVector (.rdreg 0x100 0) ∧
    ReservedOperand Config.testVector (.ldcal 0x100 0 0) ∧ ReservedOperand Config.testVector (.ldcal 0 0x100 0) ∧
    ReservedOperand Config.testVector (.ldcal 0 0 0x100) ∧ ReservedOperand Config.testVector (.conv 0x4000) ∧
    ReservedOperand Config.testVector (.uvdec 0x100) ∧ ReservedOperand Config.testVector (.ovdec 0x100) ∧
    ReservedOperand Config.testVector (.scdbits 44 2) ∧ ReservedOperand Config.testVector (.scdbits 45 0) ∧
    ReservedOperand Config.testVector (.ocdbits 22 2) ∧ ReservedOperand Config.testVector (.ocdbits 9 0) ∧
    ReservedOperand Config.testVector (.recon 3 0) ∧ ReservedOperand Config.testVector (.recon 0 3) := by
  refine ⟨?_, ?_, ?_, ?_, ?_, ?_, ?_, ?_, ?_, ?_, ?_, ?_, ?_, ?_⟩ <;> simp only [ReservedOperand] <;> decide +kernel

theorem witness_StatusesAreRaisedOnlyWhereListed :
    fixture.cfg.wf ∧ (after (exec (.rdreg 0x50 11) fixture)).map State.resp = some (answerError .eTooLarge) :=
  ⟨test_default_tables_wf, by decide +kernel⟩

/-- `LDCAL` from each bring-up state, `COMMIT`, and another operation. -/
theorem witness_BringUpGoesForwardOnly :
    State.reset.phase = some .reset ∧ (calibrated 378 43).phase = some .calibrated ∧ fixture.phase = some .initialized ∧
    (after (exec (.ldcal 0 0 0) State.reset)).map State.phase = some (some .calibrated) ∧
    (after (exec (.ldcal 0 0 0) fixture)).map State.phase = some (some .initialized) ∧
    (after (exec (.commit 0) (calibrated 378 43))).map State.phase = some (some .initialized) ∧
    (after (exec .uvwin (calibrated 378 43))).map State.phase = some (some .calibrated) := by decide +kernel

theorem witness_OperationsMakeAtMostOneTransportCall :
    calls (scripted [.fail]) (.rdreg 0xFF 10) = some [.writeRead 0x08 [0xFF] 20] ∧
    calls fixture (.rdreg 0xFF 11) = some [] := by decide +kernel

theorem witness_ResultOperationsChangeTheResultStateOnly : OnlyResults .rdst ∧ OnlyResults (.protcfg 1 2 3 4 5) :=
  ⟨trivial, trivial⟩

/-- A `WRREG` to the last register, with the device in the block's mode: the registers at 0xFF and at 0x00, the next modulo 256, change. -/
theorem witness_FramerOperationsLeaveTheRest :
    (after (exec (.wrreg 0xFF [1, 2]) { fixture with transport := .loopback blankDevice })).map
        (fun t => (t.deviceReg 0xFF, t.deviceReg 0x00, t.deviceReg 0x01)) = some (some 1, some 2, some 0) ∧
    blankDevice.crcMode = fixture.cfg.crcEn := by decide +kernel

/-- The fixture in plain mode against a block in checksum mode: it stores the whole frame, 2n bytes from `reg`, and no more. -/
theorem witness_FramerOperationsLeaveTheRest_modes_differ :
    (after (exec (.wrreg 0x04 [0x19]) { fixture with transport := .loopback { blankDevice with crcMode := false } })).map
        (fun t => (t.deviceReg 0x04, t.deviceReg 0x05, t.deviceReg 0x06)) = some (some 0x19, some 0xB9, some 0) ∧
    (∀ i < 2 * 1, 0x06 ≠ regAddr (lowByte 0x04) i) ∧ fixture.cfg.crcEn ≠ false := by decide +kernel

/-! ### Witnesses: control and framer -/

theorem witness_CommitNeedsACalibration : fixture.calv = true ∧ State.reset.calv = false := by decide +kernel

/-- The lowest raw code of the range, with the most negative offset. -/
theorem witness_BringUpReachesConversion :
    (348 : Word).toNat = 348 ∧ (0x3FFF : Word).toNat ≤ 0x3FFF ∧ (0x80 : Word).toNat ≤ 0xFF ∧
    answer (live 365 0x80) (.conv 348) = some (answerOk { r0 := 0 }) := by decide +kernel

theorem witness_CrcOperationFoldsItsBytes : 0 < [(0x10 : Byte)].length ∧ 30 < (List.replicate 31 (0 : Byte)).length := by decide

theorem witness_CrcFacts :
    Config.testVector.crcInit = 0 ∧ Config.testVector.crcXorOut = 0 ∧ [(1 : Byte), 2].length = [(3 : Byte), 4].length := by decide

/-- The shortest and the longest payload, an answer of each kind. -/
theorem witness_WriteFrameCarriesACrcAfterEveryByte :
    (scripted [.fail]).cfg.crcEn = true ∧ (0xFF : Word).toNat ≤ 0xFF ∧ 1 ≤ (List.replicate 8 (1 : Byte)).length ∧
    (List.replicate 8 (1 : Byte)).length ≤ 8 ∧ (scripted [.fail]).transport = .oracle (.fail :: []) ∧ BusAnswer.fail ≠ .silent ∧
    calls (scripted [.ok []]) (.wrreg 0x00 [1, 2, 3, 4, 5, 6, 7, 8]) = some [.write 0x08
      [0x00, 0x01, 0xA5, 0x02, 0x0E, 0x03, 0x09, 0x04, 0x1C, 0x05, 0x1B, 0x06, 0x12, 0x07, 0x15, 0x08, 0x38]] := by
  decide +kernel

theorem witness_PlainWriteFrameIsAddressAndPayload :
    (plain [.ok []]).cfg.crcEn = false ∧ (plain [.ok []]).transport = .oracle (.ok [] :: []) ∧
    calls (plain [.ok []]) (.wrreg 0x06 [0x9C, 0x79, 0x50, 0xAB, 0x43, 0x19]) =
      some [.write 0x08 [0x06, 0x9C, 0x79, 0x50, 0xAB, 0x43, 0x19]] := by decide +kernel

/-- A response whose CRC bytes are the expected ones, and one whose second is not. -/
theorem witness_ReadDeliversAllVerifiedBytesOrNone :
    fixture.cfg.crcEn = true ∧ 1 ≤ (10 : Word).toNat ∧ (10 : Word).toNat ≤ 2 * fixture.cfg.variant.channels ∧
    [(0x15 : Byte), 0x29, 0x2B, 0xD1].length = 2 * (2 : Word).toNat ∧
    (∀ i < 2, [(0x15 : Byte), 0x29, 0x2B, 0xD1][2 * i + 1]? = some (readCrc fixture.cfg [0x15, 0x29, 0x2B, 0xD1] i)) ∧
    [(0x15 : Byte), 0x29, 0x2A, 0xD1][2 * 1 + 1]? ≠ some (readCrc fixture.cfg [0x15, 0x29, 0x2A, 0xD1] 1) := by
  decide +kernel

theorem witness_PlainReadDeliversTheResponse :
    (plain [.ok [0x15, 0x29]]).cfg.crcEn = false ∧ [(0x15 : Byte), 0x29].length = (2 : Word).toNat ∧
    answer (plain [.ok [0x15, 0x29]]) (.rdreg 0x50 2) = some ⟨.ok, 0, 0, 0, {}, [0x15, 0x29]⟩ := by decide +kernel

/-- The values where the clauses meet: 8 and 9 bytes, 10 and 11 bytes, 0xFF and 0x100. -/
theorem witness_FramerTestsComeBeforeTheCall :
    (0xFF : Word).toNat ≤ 0xFF ∧ 0xFF < (0x100 : Word).toNat ∧
    answer fixture (.wrreg 0xFF []) = some (answerOk {}) ∧
    answer fixture (.wrreg 0xFF (List.replicate 9 0)) = some (answerError .eTooLarge) ∧
    answer (scripted [.ok []]) (.wrreg 0xFF (List.replicate 8 0)) = some (answerOk {}) ∧
    answer fixture (.rdreg 0xFF 0) = some (answerOk {}) ∧
    answer fixture (.rdreg 0xFF 11) = some (answerError .eTooLarge) ∧
    answer (plain [.ok (List.replicate 10 7)]) (.rdreg 0xFF 10) = some ⟨.ok, 0, 0, 0, {}, List.replicate 10 7⟩ := by
  decide +kernel

theorem witness_BusFailureAndCrcMismatchAreToldApart :
    callOf fixture.cfg (.rdreg 0x50 1) = some (.writeRead 0x08 [0x50] 2) ∧
    busAnswer (.writeRead 0x08 [0x50] 2) (scripted [.fail]) = .fail ∧
    answer (scripted [.fail]) (.rdreg 0x50 1) = some (answerError .eBus) ∧
    busAnswer (.writeRead 0x08 [0x50] 2) (scripted [.ok [0x15, 0x28]]) = .ok [0x15, 0x28] ∧
    answer (scripted [.ok [0x15, 0x28]]) (.rdreg 0x50 1) = some (answerError .eCrc) := by decide +kernel

theorem witness_OneCorruptedByteIsAlwaysDetected :
    (scripted [.ok [0x15, 0x29, 0x2B, 0xD1]]).transport = .oracle (.ok [0x15, 0x29, 0x2B, 0xD1] :: []) ∧
    (after (exec (.rdreg 0x50 2) (scripted [.ok [0x15, 0x29, 0x2B, 0xD1]]))).map (fun t => t.resp.status) = some .ok ∧
    [(0x15 : Byte), 0x29, 0x2B, 0xD1][0]? ≠ some 0x14 ∧ [(0x15 : Byte), 0x29, 0x2B, 0xD1][3]? ≠ some 0xD0 := by decide +kernel

/-- The longest payload, at the last register. -/
theorem witness_WriteThenReadGivesBackThePayload :
    blankDevice.addr = fixture.cfg.devAddr ∧ blankDevice.crcMode = fixture.cfg.crcEn ∧ blankDevice.failNext = false ∧
    blankDevice.corrupt = none ∧ blankDevice.mem.wf = true ∧
    ((after (exec (.wrreg 0xFF [1, 2, 3, 4, 5, 6, 7, 8]) { fixture with transport := .loopback blankDevice })).bind
      fun t => answer t (.rdreg 0xFF 8)) = some ⟨.ok, 0, 0, 0, {}, [1, 2, 3, 4, 5, 6, 7, 8]⟩ := by decide +kernel

/-! ### Witnesses: scaler -/

theorem witness_LdcalLoadsTheTrimBytes :
    (0xFF : Word).toNat ≤ 0xFF ∧ 0xFF < (0x100 : Word).toNat ∧
    answer State.reset (.ldcal 0xFF 0xFF 0xFF) = some (answerOk { r0 := 396, r1 := 0xFFFFFFFF }) := by decide +kernel

/-- Each clause at its boundary. -/
theorem witness_ConvDeliversTruncatedMillivolts :
    0x3FFF < (0x4000 : Word).toNat ∧ (0x3FFF : Word).toNat ≤ 0x3FFF ∧ (calibrated 378 43).init = false ∧
    (live 365 0x80).init = true ∧ mv (gain (live 365 0x80)) (offset (live 365 0x80)) (347 : Word).toNat = -1 ∧
    mv (gain (live 365 0x80)) (offset (live 365 0x80)) (348 : Word).toNat = 0 := by decide +kernel

theorem witness_WindowOperationsDeliverTheExtremes : fixture.calv = true ∧ State.reset.calv = false := by decide +kernel

/-- The ends of the window, and the values just outside it. -/
theorem witness_UvencValidatesAndEncodes :
    fixture.calv = true ∧ mv (gain fixture) (offset fixture) 4096 = ((1591 : Word).toNat : Int) ∧
    mv (gain fixture) (offset fixture) 8176 = ((3133 : Word).toNat : Int) ∧
    answer fixture (.uvenc 1590) = some (answerWindow 1591 3133 0) ∧
    answer fixture (.uvenc 3134) = some (answerWindow 1591 3133 0) ∧
    answer fixture (.uvenc 3133) = some (answerOk { r0 := 0xFE, r1 := 3127 }) := by decide +kernel

theorem witness_OvencValidatesAndEncodes :
    fixture.calv = true ∧ mv (gain fixture) (offset fixture) 8200 = ((3142 : Word).toNat : Int) ∧
    mv (gain fixture) (offset fixture) 12280 = ((4684 : Word).toNat : Int) ∧
    answer fixture (.ovenc 3141) = some (answerWindow 3142 4684 1) ∧
    answer fixture (.ovenc 3142) = some (answerOk { r0 := 0x00, r1 := 3142 }) ∧
    answer fixture (.ovenc 4684) = some (answerOk { r0 := 0xFF, r1 := 4684 }) := by decide +kernel

theorem witness_DecodeOperationsDeliverTripMillivolts :
    0xFF < (0x100 : Word).toNat ∧ (0xFF : Word).toNat ≤ 0xFF ∧ State.reset.calv = false ∧
    answer fixture (.uvdec 0xFF) = some (answerOk { r0 := 3133 }) ∧
    answer fixture (.ovdec 0xFF) = some (answerOk { r0 := 4684 }) := by decide +kernel

/-- The extreme calibrations, with the values the spec gives for them. -/
theorem witness_TransferFunctionSignAndSize :
    Calibrated (365 : Nat) (-128) ∧ Calibrated (396 : Nat) 127 ∧ xfer 365 (-128) 0 = -128 ∧ xfer 396 127 0x3FFF = 6614 := by
  decide +kernel

theorem witness_WindowsArePositiveAndApart :
    Calibrated (365 : Nat) (-128) ∧ xfer 365 (-128) uvLo = 1367 ∧ Calibrated (396 : Nat) 127 ∧ xfer 396 127 ovHi = 4989 := by
  decide +kernel

theorem witness_AchievedValuesIncreaseWithTheCode :
    Calibrated (375 : Nat) 0 ∧ uvDecode 375 0 0 = 1536 ∧ ovDecode 375 0 0xFF = 4605 := by decide +kernel

/-- Targets inside the windows of the fixture, the lowest with `q` not below 0x1000. -/
theorem witness_RoundTripErrorIsBounded :
    Calibrated (378 : Nat) 43 ∧ xfer 378 43 ovLo = (3142 : Nat) ∧ xfer 378 43 ovHi = (4684 : Nat) ∧
    xfer 378 43 uvLo ≤ (1592 : Nat) ∧ ((1592 : Nat) : Int) ≤ xfer 378 43 uvHi ∧ 0x1000 ≤ rawOfTarget 378 43 1592 := by
  decide +kernel

/-- The lowest target with the gain 378, and with 375, the one gain that does not wrap. -/
theorem witness_LowestUvTargetWrapsToTheHighestCode :
    Calibrated (378 : Nat) 43 ∧ ((1591 : Nat) : Int) = xfer 378 43 uvLo ∧ rawOfTarget 378 43 1591 = 4095 ∧
    Calibrated (375 : Nat) 0 ∧ ((1536 : Nat) : Int) = xfer 375 0 uvLo ∧ rawOfTarget 375 0 1536 = 4096 := by decide +kernel

/-! ### Witnesses: threshold encoder -/

theorem witness_ThresholdOperationsRoundUpToAnEntry : State.reset.cfg.wf := test_default_tables_wf

/-- An entry of each table, with a code in one range and none in the other. -/
theorem witness_BitsOperationsDeliverTheCodeOfTheRange :
    (⟨133, none, some 4⟩ : Entry) ∈ State.reset.cfg.tblScd.entries ∧ codeIn ⟨133, none, some 4⟩ 1 = some 4 ∧
    codeIn ⟨133, none, some 4⟩ 0 = none ∧ (⟨50, some 15, some 6⟩ : Entry) ∈ State.reset.cfg.tblOcd.entries ∧
    codeIn ⟨50, some 15, some 6⟩ 0 = some 15 ∧ codeIn ⟨50, some 15, some 6⟩ 2 = none ∧
    (∀ e ∈ State.reset.cfg.tblScd.entries, e.mv ≠ 45) ∧ ∀ e ∈ State.reset.cfg.tblOcd.entries, e.mv ≠ 9 := by decide +kernel

theorem witness_ReconResolvesTheSharedRange :
    2 < (3 : Word).toNat ∧ Mismatch 0 1 ∧ Mismatch 1 0 ∧ (2 : Word).toNat ≤ 2 ∧ ¬ Mismatch 2 2 ∧ resolved 2 2 = 0 ∧
    resolved 1 2 = 1 ∧ resolved 2 1 = 1 := by decide

/-- The entries the source's scenario selects, a mismatching pair, and targets at the ends of both windows. -/
theorem witness_ProtcfgFollowsItsSteps :
    fixture.cfg.wf ∧ Selects fixture.cfg.tblScd (drop 200 667) ⟨133, none, some 4⟩ ∧
    Selects fixture.cfg.tblOcd (drop 100 667) ⟨67, none, some 9⟩ ∧ Selects fixture.cfg.tblOcd (drop 12 667) ⟨8, some 0, none⟩ ∧
    Mismatch (classWord ⟨133, none, some 4⟩) (classWord ⟨8, some 0, none⟩) ∧
    ¬ Mismatch (classWord ⟨133, none, some 4⟩) (classWord ⟨67, none, some 9⟩) ∧
    answer fixture (.protcfg 200 100 667 1590 0) = some (answerWindow 1591 3133 0) ∧
    answer fixture (.protcfg 200 100 667 1591 4685) = some (answerWindow 3142 4684 1) ∧
    (answer fixture (.protcfg 200 100 667 3133 4684)).map Response.status = some .ok := by
  refine ⟨test_default_tables_wf, ?_, ?_, ?_, ?_, ?_, ?_, ?_, ?_⟩ <;> (try unfold Selects) <;> decide +kernel

theorem witness_ReencodingAlwaysSucceeds :
    fixture.cfg.wf ∧ (⟨44, some 2, some 0⟩ : Entry) ∈ fixture.cfg.tblScd.entries ∧
    (⟨8, some 0, none⟩ : Entry) ∈ fixture.cfg.tblOcd.entries ∧
    reconcile (rangeOf ⟨44, some 2, some 0⟩) (rangeOf ⟨8, some 0, none⟩) = some .lower ∧
    ∃ t, exec (.protcfg 44 8 1000 2000 4175) fixture = .next t :=
  ⟨test_default_tables_wf, by decide +kernel, by decide +kernel, by decide, _, rfl⟩

/-- A drop below the first entry, above the last, and equal to one. -/
theorem witness_CodecProperties :
    defaultTblScd.wf 3 ∧ dropMv 0 0 < defaultTblScd.first.mv.toNat ∧ defaultTblScd.last.mv.toNat < dropMv 201 1000 ∧
    dropMv 44 1000 = (44 : Word).toNat ∧ dropMv 200 1000 ≤ defaultTblScd.last.mv.toNat := by decide +kernel

end Sys2Proof.Tests
end

section
/-! PROOF. The byte update of the CRC-8 is a long division by the generator polynomial (spec/40_framer.md R90, R91). -/

namespace Sys2Proof.Machine

/-- The carry-less multiple of the generator 0x107 = x⁸+x²+x+1 by the polynomial whose coefficients below `xⁿ` are the bits of `q`. -/
def generatorMultiple (q : Nat → Bool) (n : Nat) : BitVec 16 :=
  (List.range n).foldl (fun x j => x ^^^ if q j then (0x107 : BitVec 16) <<< j else 0) 0

/-- Bit `j` of the quotient after `n` iterations on `x`: the bit that leaves at the top `j` iterations before the last (R91). -/
def quotientBit (x : Byte) (n j : Nat) : Bool := (crcShift^[n - 1 - j] x).msb

theorem generatorMultiple_succ (q : Nat → Bool) (n : Nat) :
    generatorMultiple q (n + 1) = generatorMultiple q n ^^^ if q n then (0x107 : BitVec 16) <<< n else 0 := by
  simp only [generatorMultiple, List.range_succ, List.foldl_append, List.foldl_cons, List.foldl_nil]

/-- A multiple of degree below `n` reads the bits below `n` only. -/
theorem generatorMultiple_congr {q q' : Nat → Bool} {n : Nat} (h : ∀ j < n, q j = q' j) :
    generatorMultiple q n = generatorMultiple q' n :=
  List.foldl_ext _ _ _ fun _ j hj => by rw [h j (List.mem_range.mp hj)]

theorem quotientBit_succ_self (x : Byte) (n : Nat) : quotientBit x (n + 1) n = x.msb := by simp [quotientBit]

/-- Below its top bit, the quotient of one iteration more is that of the byte after the first iteration. -/
theorem quotientBit_succ_of_lt (x : Byte) {n j : Nat} (h : j < n) :
    quotientBit x (n + 1) j = quotientBit (crcShift x) n j := by
  rw [quotientBit, quotientBit, ← Function.iterate_succ_apply, show n + 1 - 1 - j = (n - 1 - j).succ by omega]

/-- The shift of R91 in 16 bits keeps the top bit, as x⁸. -/
theorem setWidth_shiftLeft_one_eq_carry (x : Byte) :
    x.setWidth 16 <<< 1 = (x <<< 1).setWidth 16 ^^^ if x.msb then 0x100 else 0 := by
  revert x; decide +kernel

/-- One step of the long division: the byte moved up by one place leaves `crcShift` of it, and the generator, x⁸ together with
`crcPoly`, goes in when a 1 left at the top (R90, R91). -/
theorem setWidth_shiftLeft_one_eq (x : Byte) :
    x.setWidth 16 <<< 1 = (crcShift x).setWidth 16 ^^^ if x.msb then 0x107 else 0 := by
  rw [setWidth_shiftLeft_one_eq_carry, crcShift]
  cases x.msb
  case false => rfl
  case true =>
    have generator : (0x100 : BitVec 16) = crcPoly.setWidth 16 ^^^ 0x107 := by decide
    simp only [if_true, generator, BitVec.setWidth_xor, BitVec.xor_assoc]

/-- `n` steps of the long division: the byte moved up by `n` places is the remainder plus a multiple of the generator. -/
theorem setWidth_shiftLeft_eq (n : Nat) (x : Byte) :
    x.setWidth 16 <<< n = generatorMultiple (quotientBit x n) n ^^^ (crcShift^[n] x).setWidth 16 := by
  induction n generalizing x with
  | zero => simp [generatorMultiple]
  | succ n ih =>
    calc x.setWidth 16 <<< (n + 1)
        = (x.setWidth 16 <<< 1) <<< n := by rw [Nat.add_comm, BitVec.shiftLeft_add]
      _ = (crcShift x).setWidth 16 <<< n ^^^ if x.msb then (0x107 : BitVec 16) <<< n else 0 := by
        rw [setWidth_shiftLeft_one_eq, BitVec.shiftLeft_xor_distrib]
        cases x.msb <;> simp
      _ = generatorMultiple (quotientBit x (n + 1)) (n + 1) ^^^ (crcShift^[n + 1] x).setWidth 16 := by
        rw [ih, generatorMultiple_succ, quotientBit_succ_self, Function.iterate_succ_apply,
          generatorMultiple_congr fun j hj => quotientBit_succ_of_lt x hj]
        ac_rfl

/-- Settles O31: eight steps of the long division, whose quotient is the eight bits that left at the top. -/
theorem crcStepIsTheRemainderOfTheDivision : Obligations.CrcStepIsTheRemainderOfTheDivision := by
  intro acc b
  refine ⟨BitVec.ofFnLE fun j : Fin 8 => quotientBit (acc ^^^ b) 8 j, ?_⟩
  rw [setWidth_shiftLeft_eq, BitVec.xor_assoc, crcStep, BitVec.xor_self, BitVec.xor_zero]
  exact generatorMultiple_congr fun j hj => by simp [hj]

end Sys2Proof.Machine
end

section
/-! PROOF. The decoder reads the named fields of a request, and no others (spec/30_encoding.md R30, R60, R62). -/

namespace Sys2Proof

theorem bufFits_iff (buf : List Byte) : bufFits buf = true ↔ buf.length ≤ 31 := decide_eq_true_iff

/-- Settles O2: the named operands stand in the fields of the request, and the buffer comes back as its payload, since it fits. -/
theorem encodeThenDecodeGivesTheOperation : Obligations.EncodeThenDecodeGivesTheOperation := by
  intro i hwf
  cases i with
  | crc8 buf =>
    have hpayload : (encode (.crc8 buf)).payload = buf := withBuf_payload _ buf ((bufFits_iff buf).mp hwf)
    exact congrArg (fun d => some (Instr.crc8 d)) hpayload
  | wrreg reg buf =>
    have hpayload : (encode (.wrreg reg buf)).payload = buf := payload_of_padBuf _ buf ((bufFits_iff buf).mp hwf) rfl rfl
    exact congrArg (fun d => some (Instr.wrreg reg d)) hpayload
  | _ => rfl

/-- Settles O5: in each row of the opcode map the decoder reads the fields the row counts. -/
theorem fieldsNotNamedAreIgnored : Obligations.FieldsNotNamedAreIgnored := by
  intro r r' row hrow hop hop' h0 h1 h2 h3 h4 hbuf
  simp only [opcodeMap, List.mem_cons, List.not_mem_nil, or_false] at hrow
  rcases hrow with rfl | rfl | rfl | rfl | rfl | rfl | rfl | rfl | rfl | rfl | rfl | rfl | rfl | rfl | rfl | rfl | rfl |
    rfl | rfl <;> simp_all [decode]

end Sys2Proof
end

section
/-! PROOF. What a step can do, one equation per kind of event, and the induction principle for what every step keeps
(spec/20_memory.md R52, spec/70_reset_and_hazards.md R210). -/

namespace Sys2Proof.Machine

variable {s : State} {r : Request} {rest : List HostEvent}

theorem step_of_no_event (h : s.inbox = []) : step s = .next s := by simp only [step, h, idle]

theorem step_of_request {i : Instr} (h : s.inbox = .request r :: rest) (hd : decode r = some i) :
    step s = exec i (takeEvent rest s) := by simp only [step, h, hd]

theorem step_of_reserved (h : s.inbox = .request r :: rest) (hd : decode r = none) :
    step s = .next (raise .invariant (takeEvent rest s)) := by simp only [step, h, hd, rejectOpcode]

theorem step_of_reset (h : s.inbox = .reset :: rest) : step s = .next (applyReset (takeEvent rest s)) := by
  simp only [step, h]

theorem step_of_resetDuring {called : Bool} (h : s.inbox = .resetDuring r called :: rest) :
    step s = .next (resetDuring r called (takeEvent rest s)) := by simp only [step, h]

/-- A reset during an operation is a reset, after at most the one call the operation makes (R210). -/
theorem resetDuring_cases (r : Request) (called : Bool) (s : State) :
    (abandonedCall s.cfg r called = none ∧ resetDuring r called s = applyReset s) ∨
    ∃ c, abandonedCall s.cfg r called = some c ∧ resetDuring r called s = applyReset (afterCall c s) := by
  unfold resetDuring
  cases abandonedCall s.cfg r called with
  | none => exact .inl ⟨rfl, rfl⟩
  | some c => exact .inr ⟨c, rfl, rfl⟩

/-- What taking an event, an operation, an error, a transport call and a reset keep, every step keeps. -/
theorem step_keeps {P : State → Prop} (take : ∀ rest s, P s → P (takeEvent rest s))
    (op : ∀ i s t, P s → exec i s = .next t → P t) (error : ∀ s, P s → P (raise .invariant s))
    (call : ∀ c s, P s → P (afterCall c s)) (reset : ∀ s, P s → P (applyReset s)) {t : State} (hs : P s)
    (h : step s = .next t) : P t := by
  match hin : s.inbox with
  | [] =>
    rw [step_of_no_event hin] at h
    exact Host.Outcome.next.inj h ▸ hs
  | .request r :: rest =>
    cases hd : decode r with
    | some i => exact op i _ t (take rest s hs) (step_of_request hin hd ▸ h)
    | none =>
      rw [step_of_reserved hin hd] at h
      exact Host.Outcome.next.inj h ▸ error _ (take rest s hs)
  | .reset :: rest =>
    rw [step_of_reset hin] at h
    exact Host.Outcome.next.inj h ▸ reset _ (take rest s hs)
  | .resetDuring r called :: rest =>
    rw [step_of_resetDuring hin] at h
    rw [← Host.Outcome.next.inj h]
    rcases resetDuring_cases r called (takeEvent rest s) with ⟨-, he⟩ | ⟨c, -, he⟩
    · exact he ▸ reset _ (take rest s hs)
    · exact he ▸ reset _ (call c _ (take rest s hs))

/-- Settles O7. -/
theorem stepRunsTheDecodedOperation : Obligations.StepRunsTheDecodedOperation :=
  fun _ _ _ _ hin hd => step_of_request hin hd

end Sys2Proof.Machine
end

section
/-! PROOF. How an operation ends: with the result it computes and nothing else, or as one of the five that do more. Which results an
operation can deliver, and the frame of each ending (spec/10_state.md R32, spec/43_control.md R170, spec/60_exceptions.md R195). -/

namespace Sys2Proof.Machine

open Sys2Proof.Claims

/-! ### The result of an operation that does nothing else -/

/-- The result of a framer operation that ends before its transport call; `none` where it makes the call (R100, R101). -/
def resultWithoutCall : Except ErrorCause (Option BusCall) → Option (Except ErrorCause Results)
  | .error e => some (.error e)
  | .ok none => some (.ok {})
  | .ok (some _) => none

/-- The result with which an operation ends in state `s` when it writes the result state and nothing else (R195); `none` where it
loads a calibration, commits, computes a CRC or calls the transport. -/
def localResult (s : State) : Instr → Option (Except ErrorCause Results)
  | .rdst => some (.ok (rdstResults s))
  | .commit _ => if s.calv then none else some (.error .uninit)
  | .crc8 _ => none
  | .wrreg reg buf => resultWithoutCall (wrregCall s.cfg reg buf)
  | .rdreg reg n => resultWithoutCall (rdregCall s.cfg reg n)
  | .ldcal a b c => if isByte a && isByte b && isByte c then none else some (.error .invariant)
  | .conv raw => some (convResult raw s)
  | .uvwin => some (needFlag s.calv (.ok { r0 := signedWord (millivolts s uvLo), r1 := signedWord (millivolts s uvHi) }))
  | .ovwin => some (needFlag s.calv (.ok { r0 := signedWord (millivolts s ovLo), r1 := signedWord (millivolts s ovHi) }))
  | .uvenc t => some (needFlag s.calv ((encodeUv s t).map codeResults))
  | .ovenc t => some (needFlag s.calv ((encodeOv s t).map codeResults))
  | .uvdec c => some (if ¬ isByte c then .error .invariant
      else needFlag s.calv (.ok { r0 := signedWord (millivolts s (uvRaw c.toNat)) }))
  | .ovdec c => some (if ¬ isByte c then .error .invariant
      else needFlag s.calv (.ok { r0 := signedWord (millivolts s (ovRaw c.toNat)) }))
  | .scdthr amps shunt => some (.ok (thresholdResults (fromCurrent s.cfg.tblScd amps shunt)))
  | .ocdthr amps shunt => some (.ok (thresholdResults (fromCurrent s.cfg.tblOcd amps shunt)))
  | .scdbits thr range => some (bitsResult s.cfg.tblScd thr range)
  | .ocdbits thr range => some (bitsResult s.cfg.tblOcd thr range)
  | .recon scd ocd => some (reconResult scd ocd)
  | .protcfg scd ocd shunt uv ov => some (needFlag s.calv (protResult scd ocd shunt uv ov s))

theorem resultWithoutCall_eq_some {q : Except ErrorCause (Option BusCall)} {x : Except ErrorCause Results}
    (h : resultWithoutCall q = some x) : (∃ e, q = .error e ∧ x = .error e) ∨ (q = .ok none ∧ x = .ok {}) := by
  match q, h with
  | .error e, h => exact .inl ⟨e, rfl, (Option.some.inj h).symm⟩
  | .ok none, h => exact .inr ⟨rfl, (Option.some.inj h).symm⟩

theorem resultWithoutCall_eq_none {q : Except ErrorCause (Option BusCall)} (h : resultWithoutCall q = none) :
    ∃ c, q = .ok (some c) := by
  match q, h with
  | .ok (some c), _ => exact ⟨c, rfl⟩

/-- An operation with such a result ends with it and leaves the rest of the machine alone. -/
theorem exec_of_localResult {s : State} {i : Instr} {x : Except ErrorCause Results} (h : localResult s i = some x) :
    exec i s = .next (finish x s) := by
  cases i with
  | commit w =>
    simp only [localResult, Option.ite_none_left_eq_some, Option.some.injEq] at h
    obtain ⟨hc, rfl⟩ := h
    exact if_neg hc
  | ldcal a b c =>
    simp only [localResult, Option.ite_none_left_eq_some, Option.some.injEq] at h
    obtain ⟨hb, rfl⟩ := h
    exact if_neg hb
  | crc8 buf => exact nomatch h
  | wrreg reg buf =>
    rcases resultWithoutCall_eq_some h with ⟨e, hq, rfl⟩ | ⟨hq, rfl⟩ <;> simp only [exec, execWrreg, hq] <;> rfl
  | rdreg reg n =>
    rcases resultWithoutCall_eq_some h with ⟨e, hq, rfl⟩ | ⟨hq, rfl⟩ <;> simp only [exec, execRdreg, hq] <;> rfl
  | _ => exact Option.some.inj h ▸ rfl

/-- The operations that do more than write the result state, each with the tests it has passed. -/
theorem localResult_eq_none {s : State} {i : Instr} (h : localResult s i = none) :
    (∃ w, i = .commit w ∧ s.calv = true) ∨
    (∃ a b c, i = .ldcal a b c ∧ (isByte a && isByte b && isByte c) = true) ∨
    (∃ buf, i = .crc8 buf) ∨
    (∃ reg buf c, i = .wrreg reg buf ∧ wrregCall s.cfg reg buf = .ok (some c)) ∨
    ∃ reg n c, i = .rdreg reg n ∧ rdregCall s.cfg reg n = .ok (some c) := by
  cases i with
  | commit w => exact .inl ⟨w, rfl, by simpa only [localResult, ite_eq_left_iff, reduceCtorEq, imp_false, not_not] using h⟩
  | ldcal a b c =>
    exact .inr (.inl ⟨a, b, c, rfl, by simpa only [localResult, ite_eq_left_iff, reduceCtorEq, imp_false, not_not] using h⟩)
  | crc8 buf => exact .inr (.inr (.inl ⟨buf, rfl⟩))
  | wrreg reg buf =>
    obtain ⟨c, hc⟩ := resultWithoutCall_eq_none h
    exact .inr (.inr (.inr (.inl ⟨reg, buf, c, rfl, hc⟩)))
  | rdreg reg n =>
    obtain ⟨c, hc⟩ := resultWithoutCall_eq_none h
    exact .inr (.inr (.inr (.inr ⟨reg, n, c, rfl, hc⟩)))
  | _ => exact nomatch h

/-! ### What results an operation can deliver -/

/-- A result that an operation whose row names `k` registers can deliver: 0 in the other registers (R32), and any error but the
reserved `E_VERIFY` (R190). -/
inductive Deliverable (k : Nat) : Except ErrorCause Results → Prop where
  | ok {r : Results} (unnamed : ∀ w ∈ (Listed r).drop k, w = 0) : Deliverable k (.ok r)
  | error {e : ErrorCause} (noVerify : ∀ reg, e ≠ .verify reg) : Deliverable k (.error e)

theorem deliverable_empty (k : Nat) : Deliverable k (.ok {}) :=
  .ok fun w hw => by simpa [Listed] using List.mem_of_mem_drop hw

theorem deliverable_r0 (w : Word) : Deliverable 1 (.ok { r0 := w }) := .ok (by simp [Listed])

theorem deliverable_r0_r1 (w w' : Word) : Deliverable 2 (.ok { r0 := w, r1 := w' }) := .ok (by simp [Listed])

theorem deliverable_needFlag {k : Nat} {x : Except ErrorCause Results} (flag : Bool) (h : Deliverable k x) :
    Deliverable k (needFlag flag x) := by
  cases flag with
  | true => exact h
  | false => exact .error nofun

theorem deliverable_resultWithoutCall {k : Nat} {q : Except ErrorCause (Option BusCall)} {x : Except ErrorCause Results}
    (hq : ∀ e, q = .error e → ∀ reg, e ≠ .verify reg) (h : resultWithoutCall q = some x) : Deliverable k x := by
  rcases resultWithoutCall_eq_some h with ⟨e, he, rfl⟩ | ⟨-, rfl⟩
  · exact .error (hq e he)
  · exact deliverable_empty k

theorem deliverable_convResult (raw : Word) (s : State) : Deliverable 1 (convResult raw s) := by
  unfold convResult
  split
  · exact .error nofun
  · refine deliverable_needFlag _ ?_
    split
    · exact .error nofun
    · exact deliverable_r0 _

/-- A UV target has a code, or lies outside the window (R126). -/
theorem encodeUv_cases (s : State) (t : Word) :
    (∃ p, encodeUv s t = .ok p) ∨ ∃ lo hi, encodeUv s t = .error (.unobtainable lo hi false) := by
  unfold encodeUv
  split
  · exact .inl ⟨_, rfl⟩
  · exact .inr ⟨_, _, rfl⟩

/-- An OV target has a code, or lies outside the window (R127). -/
theorem encodeOv_cases (s : State) (t : Word) :
    (∃ p, encodeOv s t = .ok p) ∨ ∃ lo hi, encodeOv s t = .error (.unobtainable lo hi true) := by
  unfold encodeOv
  split
  · exact .inl ⟨_, rfl⟩
  · exact .inr ⟨_, _, rfl⟩

theorem deliverable_encodeUv (s : State) (t : Word) : Deliverable 2 ((encodeUv s t).map codeResults) := by
  rcases encodeUv_cases s t with ⟨p, h⟩ | ⟨lo, hi, h⟩ <;> rw [h]
  · exact deliverable_r0_r1 _ _
  · exact .error nofun

theorem deliverable_encodeOv (s : State) (t : Word) : Deliverable 2 ((encodeOv s t).map codeResults) := by
  rcases encodeOv_cases s t with ⟨p, h⟩ | ⟨lo, hi, h⟩ <;> rw [h]
  · exact deliverable_r0_r1 _ _
  · exact .error nofun

theorem deliverable_bitsResult (t : Table) (thr range : Word) : Deliverable 1 (bitsResult t thr range) := by
  unfold bitsResult
  split
  · exact .error nofun
  split
  · exact .error nofun
  split
  · exact .error nofun
  · exact deliverable_r0 _

theorem deliverable_reconResult (scd ocd : Word) : Deliverable 1 (reconResult scd ocd) := by
  unfold reconResult
  split
  · split
    · exact .error nofun
    · exact deliverable_r0 _
  · exact .error nofun

/-- Step 2 of `PROTCFG` fails with `E_RANGE` or `E_INVARIANT` only (R155). -/
theorem protCodes_error {e o : Entry} {err : ErrorCause} (h : protCodes e o = .error err) : err = .range ∨ err = .invariant := by
  unfold protCodes at h
  split at h
  · exact .inl (Except.error.inj h).symm
  · split at h
    · exact nomatch h
    · exact .inr (Except.error.inj h).symm

theorem deliverable_protResult (scd ocd shunt uv ov : Word) (s : State) : Deliverable 9 (protResult scd ocd shunt uv ov s) := by
  unfold protResult
  split
  next e he => exact .error (by rcases protCodes_error he with rfl | rfl <;> exact nofun)
  rcases encodeUv_cases s uv with ⟨⟨uc, ua⟩, hu⟩ | ⟨lo, hi, hu⟩ <;> simp only [hu]
  · rcases encodeOv_cases s ov with ⟨⟨oc, oa⟩, ho⟩ | ⟨lo, hi, ho⟩ <;> simp only [ho]
    · exact .ok (by simp [Listed])
    · exact .error nofun
  · exact .error nofun

theorem deliverable_localResult {s : State} {i : Instr} {x : Except ErrorCause Results} (h : localResult s i = some x) :
    Deliverable (resultsNamed i) x := by
  cases i with
  | commit w =>
    simp only [localResult, Option.ite_none_left_eq_some, Option.some.injEq] at h
    exact h.2 ▸ .error nofun
  | ldcal a b c =>
    simp only [localResult, Option.ite_none_left_eq_some, Option.some.injEq] at h
    exact h.2 ▸ .error nofun
  | crc8 buf => exact nomatch h
  | wrreg reg buf =>
    exact deliverable_resultWithoutCall (fun e he => by rcases wrregCall_error he with ⟨rfl, -⟩ | ⟨rfl, -⟩ <;> exact nofun) h
  | rdreg reg n =>
    exact deliverable_resultWithoutCall (fun e he => by rcases rdregCall_error he with ⟨rfl, -⟩ | ⟨rfl, -⟩ <;> exact nofun) h
  | rdst => exact Option.some.inj h ▸ .ok (by simp [Listed, resultsNamed, rdstResults])
  | conv raw => exact Option.some.inj h ▸ deliverable_convResult raw s
  | uvwin => exact Option.some.inj h ▸ deliverable_needFlag _ (deliverable_r0_r1 _ _)
  | ovwin => exact Option.some.inj h ▸ deliverable_needFlag _ (deliverable_r0_r1 _ _)
  | uvenc t => exact Option.some.inj h ▸ deliverable_needFlag _ (deliverable_encodeUv s t)
  | ovenc t => exact Option.some.inj h ▸ deliverable_needFlag _ (deliverable_encodeOv s t)
  | uvdec c =>
    rw [← Option.some.inj h]
    split
    · exact .error nofun
    · exact deliverable_needFlag _ (deliverable_r0 _)
  | ovdec c =>
    rw [← Option.some.inj h]
    split
    · exact .error nofun
    · exact deliverable_needFlag _ (deliverable_r0 _)
  | scdthr amps shunt => exact Option.some.inj h ▸ deliverable_r0_r1 _ _
  | ocdthr amps shunt => exact Option.some.inj h ▸ deliverable_r0_r1 _ _
  | scdbits thr range => exact Option.some.inj h ▸ deliverable_bitsResult _ thr range
  | ocdbits thr range => exact Option.some.inj h ▸ deliverable_bitsResult _ thr range
  | recon scd ocd => exact Option.some.inj h ▸ deliverable_reconResult scd ocd
  | protcfg scd ocd shunt uv ov => exact Option.some.inj h ▸ deliverable_needFlag _ (deliverable_protResult scd ocd shunt uv ov s)

/-! ### The endings -/

/-- `Ends s i t`: operation `i`, performed in state `s`, ends in state `t`. One constructor per way an operation can end. -/
inductive Ends (s : State) : Instr → State → Prop where
  | result {i : Instr} {x : Except ErrorCause Results} (h : localResult s i = some x) : Ends s i (finish x s)
  | calibrated {a b c : Word} (ha : a.toNat ≤ 0xFF) (hb : b.toNat ≤ 0xFF) (hc : c.toNat ≤ 0xFF) :
      Ends s (.ldcal a b c) (respond { r0 := (calGain a c).setWidth 32, r1 := (calOffset b).signExtend 32 }
        (loadCal (calGain a c) (calOffset b) s))
  | committed {w : Word} (h : s.calv = true) : Ends s (.commit w) (respond {} (commitShunt w s))
  | crc (buf : List Byte) : Ends s (.crc8 buf) (respond { r0 := (crc8 s.cfg buf).setWidth 32 } (noteGroups [buf] s))
  | writeFailed {reg : Word} {buf : List Byte} {c : BusCall} (call : wrregCall s.cfg reg buf = .ok (some c))
      (answer : busAnswer c s = .fail) : Ends s (.wrreg reg buf) (raise .bus (afterWrite reg buf c s))
  | written {reg : Word} {buf bytes : List Byte} {c : BusCall} (call : wrregCall s.cfg reg buf = .ok (some c))
      (answer : busAnswer c s = .ok bytes) : Ends s (.wrreg reg buf) (respond {} (afterWrite reg buf c s))
  | readFailed {reg n : Word} {c : BusCall} (call : rdregCall s.cfg reg n = .ok (some c))
      (answer : busAnswer c s = .fail) : Ends s (.rdreg reg n) (raise .bus (afterCall c s))
  | readAnswered {reg n : Word} {bytes : List Byte} {c : BusCall} (call : rdregCall s.cfg reg n = .ok (some c))
      (answer : busAnswer c s = .ok bytes) : Ends s (.rdreg reg n) (deliver bytes (afterCall c s))

/-- An operation that ends does so in one of these ways. -/
theorem exec_ends {i : Instr} {s t : State} (h : exec i s = .next t) : Ends s i t := by
  cases hx : localResult s i with
  | some x =>
    rw [exec_of_localResult hx] at h
    exact Host.Outcome.next.inj h ▸ .result hx
  | none =>
    rcases localResult_eq_none hx with ⟨w, rfl, hc⟩ | ⟨a, b, c, rfl, hb⟩ | ⟨buf, rfl⟩ | ⟨reg, buf, c, rfl, hcall⟩ |
      ⟨reg, n, c, rfl, hcall⟩
    · simp only [exec, execCommit, hc, if_true, Host.Outcome.next.injEq] at h
      exact h ▸ .committed hc
    · simp only [exec, execLdcal, hb, if_true, Host.Outcome.next.injEq] at h
      simp only [Bool.and_eq_true, isByte_iff] at hb
      obtain ⟨⟨ha, hb⟩, hc⟩ := hb
      exact h ▸ .calibrated ha hb hc
    · exact Host.Outcome.next.inj h ▸ .crc buf
    · simp only [exec, execWrreg, hcall] at h
      cases ha : busAnswer c s <;> simp only [ha, Host.Outcome.next.injEq, reduceCtorEq] at h
      · exact h ▸ .written hcall ha
      · exact h ▸ .writeFailed hcall ha
    · simp only [exec, execRdreg, hcall] at h
      cases ha : busAnswer c s <;> simp only [ha, Host.Outcome.next.injEq, reduceCtorEq] at h
      · exact h ▸ .readAnswered hcall ha
      · exact h ▸ .readFailed hcall ha

/-! ### The frame of every ending -/

theorem Ends.cfg {i : Instr} {s t : State} (h : Ends s i t) : t.cfg = s.cfg := by cases h <;> simp

/-- Every ending keeps the device's registers canonical: a call does, and nothing else touches them. -/
theorem Ends.canonical {i : Instr} {s t : State} (h : Ends s i t) (hs : s.transport.canonical = true) :
    t.transport.canonical = true := by
  cases h <;> simp [hs, reply_canonical]

/-- Persistent state: `LDCAL` writes the calibration, `COMMIT` the shunt, and every other ending leaves it (R170). -/
theorem Ends.persistent {i : Instr} {s t : State} (h : Ends s i t) :
    SamePersistent s t ∨ (∃ a b c, i = .ldcal a b c ∧ a.toNat ≤ 0xFF ∧ c.toNat ≤ 0xFF ∧
        t.gain = calGain a c ∧ t.init = s.init ∧ t.calv = true) ∨
      ∃ w, i = .commit w ∧ s.calv = true ∧ t.gain = s.gain ∧ t.init = true ∧ t.calv = true := by
  cases h with
  | calibrated ha _ hc => exact .inr (.inl ⟨_, _, _, rfl, ha, hc, rfl, rfl, rfl⟩)
  | committed hc => exact .inr (.inr ⟨_, rfl, hc, rfl, rfl, hc⟩)
  | _ => exact .inl (by constructor <;> simp)

/-- A payload has the length the operation asked for, with or without CRC bytes (R98, R101). -/
theorem payloadOf_length {cfg : Config} {bytes v : List Byte} {n : Nat} (hb : bytes.length = responseSize cfg n)
    (h : payloadOf cfg bytes = some v) : v.length = n := by
  unfold responseSize at hb
  unfold payloadOf at h
  split at h
  next hcrc =>
    obtain ⟨v', hlen, -, ⟨hv, -⟩ | ⟨hv, -⟩⟩ := checkR_cases cfg bytes n (by simpa [hcrc] using hb)
    · rwa [Option.some.inj (h.symm.trans hv)]
    · exact nomatch h.symm.trans hv
  next hcrc =>
    rw [← Option.some.inj h]
    simpa [hcrc] using hb

/-- The response of every ending: a deliverable result, or the payload of an `RDREG` within its bound (R32, R33, R195). -/
theorem Ends.response {i : Instr} {s t : State} (h : Ends s i t) :
    (∃ x, Deliverable (resultsNamed i) x ∧ t.resp = responseOf x) ∨
    ∃ reg n v, i = .rdreg reg n ∧ v.length ≤ s.cfg.variant.maxRd ∧ t.resp = okBytes v := by
  cases h with
  | result hx => exact .inl ⟨_, deliverable_localResult hx, rfl⟩
  | calibrated => exact .inl ⟨_, deliverable_r0_r1 _ _, rfl⟩
  | committed => exact .inl ⟨_, deliverable_empty _, rfl⟩
  | crc => exact .inl ⟨_, deliverable_r0 _, rfl⟩
  | writeFailed => exact .inl ⟨.error .bus, .error nofun, rfl⟩
  | written => exact .inl ⟨_, deliverable_empty _, rfl⟩
  | readFailed => exact .inl ⟨.error .bus, .error nofun, rfl⟩
  | @readAnswered reg n bytes c call answer =>
    obtain ⟨-, -, hn, rfl⟩ := rdregCall_some call
    rw [deliver_eq]
    cases hp : payloadOf s.cfg bytes with
    | some v =>
      refine .inr ⟨reg, n, v, rfl, ?_, by simp [hp]⟩
      rwa [payloadOf_length (busAnswer_read_length answer) hp]
    | none => exact .inl ⟨.error .crc, .error nofun, by simp [hp, responseOf]⟩

end Sys2Proof.Machine
end

section
/-! PROOF. What every step keeps: the configuration and the invariant; what operations write of persistent state and of the result
registers (spec/10_state.md R20, R32, R39, spec/43_control.md R170). -/

namespace Sys2Proof.Machine

open Sys2Proof.Claims

/-! ### The invariant -/

theorem calibratedGain_calGain {a c : Word} (ha : a.toNat ≤ 0xFF) (hc : c.toNat ≤ 0xFF) : calibratedGain (calGain a c) := by
  have hlt := gainTrim_lt a c ha hc
  have heq : (calGain a c).toNat = 365 + (gainTrim a c).toNat := by
    rw [calGain, BitVec.toNat_ofNat, Nat.mod_eq_of_lt (by unfold gainBase; omega), gainBase]
  unfold calibratedGain
  omega

theorem responseOf_legal {k : Nat} {x : Except ErrorCause Results} (n : Nat) (h : Deliverable k x) : (responseOf x).Legal n := by
  cases h with
  | ok => exact okResponse_legal n _
  | error noVerify => exact errorResponse_legal n _ noVerify

theorem inv_raise_invariant {s : State} (h : s.Inv) : (raise .invariant s).Inv :=
  { h with result := errorResponse_legal _ .invariant nofun }

theorem inv_afterCall {s : State} (c : BusCall) (h : s.Inv) : (afterCall c s).Inv :=
  { h with canonical := reply_canonical _ _ _ _ h.canonical }

theorem inv_applyReset {s : State} (h : s.Inv) : (applyReset s).Inv :=
  { h with gain := nofun, flags := nofun, result := okResponse_legal _ {} }

theorem exec_keeps_inv {i : Instr} {s t : State} (h : s.Inv) (he : exec i s = .next t) : t.Inv := by
  have hends := exec_ends he
  have hcfg := hends.cfg
  obtain ⟨hgain, hflags⟩ : (t.calv = true → calibratedGain t.gain) ∧ (t.init = true → t.calv = true) := by
    rcases hends.persistent with hp | ⟨a, b, c, -, ha, hc, hg, -, hcalv⟩ | ⟨w, -, hcs, hg, -, hcalv⟩
    · rw [hp.gain, hp.calv, hp.init]
      exact ⟨h.gain, h.flags⟩
    · exact ⟨fun _ => hg ▸ calibratedGain_calGain ha hc, fun _ => hcalv⟩
    · exact ⟨fun _ => hg ▸ h.gain hcs, fun _ => hcalv⟩
  have hresult : t.resp.Legal t.cfg.variant.maxRd := by
    rw [hcfg]
    rcases hends.response with ⟨x, hx, hr⟩ | ⟨reg, n, v, -, hv, hr⟩ <;> rw [hr]
    · exact responseOf_legal _ hx
    · exact okBytes_legal _ v hv
  exact ⟨hcfg ▸ h.tables, hgain, hflags, hresult, hends.canonical h.canonical⟩

/-- Settles O12, by what each part of a step keeps. -/
theorem everyStepKeepsTheInvariant : Obligations.EveryStepKeepsTheInvariant :=
  fun _ _ => step_keeps (fun _ _ h => { h with }) (fun _ _ _ => exec_keeps_inv) (fun _ => inv_raise_invariant)
    (fun c _ => inv_afterCall c) (fun _ => inv_applyReset)

theorem inv_resetFor {c : Config} (h : c.wf) : (State.resetFor c).Inv := ⟨h, nofun, nofun, okResponse_legal _ {}, rfl⟩

/-- Settles O11. -/
theorem resetMeetsTheInvariant : Obligations.ResetMeetsTheInvariant :=
  ⟨fun _ => inv_resetFor, inv_resetFor (by decide +kernel)⟩

/-! ### The configuration, the persistent state and the result registers -/

/-- Settles O13, by what each part of a step keeps. -/
theorem noStepWritesTheConfiguration : Obligations.NoStepWritesTheConfiguration :=
  fun s _ => step_keeps (P := fun u => u.cfg = s.cfg) (fun _ _ h => h) (fun _ _ _ h he => (exec_ends he).cfg.trans h)
    (fun _ h => h) (fun _ _ h => h) (fun _ h => h) rfl

/-- Settles O17, by the endings that write persistent state. -/
theorem onlyLdcalAndCommitWritePersistentState : Obligations.OnlyLdcalAndCommitWritePersistentState := by
  intro i s t he hldcal hcommit
  rcases (exec_ends he).persistent with hp | ⟨a, b, c, hi, -⟩ | ⟨w, hi, -⟩
  · exact hp
  · exact absurd hi (hldcal a b c)
  · exact absurd hi (hcommit w)

theorem listed_empty : ∀ w ∈ Listed {}, w = 0 := by simp [Listed]

/-- Settles O19, by the response of each ending. -/
theorem resultsNotNamedAreZero : Obligations.ResultsNotNamedAreZero := by
  intro i s t he
  rcases (exec_ends he).response with ⟨x, hx, hr⟩ | ⟨reg, n, v, rfl, -, hr⟩ <;> rw [hr]
  · cases hx with
    | ok unnamed => exact ⟨unnamed, fun herr => absurd rfl herr, fun _ => rfl⟩
    | @error e _ =>
      obtain ⟨hregs, hobuf, -⟩ := errorResponse_cleared e
      simp only [responseOf, hregs]
      exact ⟨fun w hw => listed_empty w (List.mem_of_mem_drop hw), fun _ => listed_empty, fun _ => hobuf⟩
  · exact ⟨listed_empty, fun herr => absurd rfl herr, fun hi => absurd rfl (hi reg n)⟩

end Sys2Proof.Machine
end

section
/-! PROOF. Two states that differ only in unwritten registers stay so, whatever the host does, and answer alike
(spec/10_state.md R37, R39). -/

namespace Sys2Proof.Claims

open Sys2Proof.Machine

variable {s s' : State}

/-! ### What two alike states compute -/

/-- With a calibration, two alike states differ in `SHUNT` and `CRCACC` only, so a function of neither takes the same value. -/
theorem Alike.eq_of_calibrated (h : Alike s s') (hc : s.calv = true) :
    s' = { s with shunt := s'.shunt, crcacc := s'.crcacc } := by
  cases s'
  simp only [State.mk.injEq, true_and]
  exact ⟨h.cfg, h.gain hc, h.offset hc, h.calv, h.init, h.resp, h.inbox, h.transport, h.trace, h.free⟩

theorem Alike.millivolts_eq (h : Alike s s') (hc : s.calv = true) (raw : Nat) : millivolts s' raw = millivolts s raw := by
  rw [h.eq_of_calibrated hc]; rfl

theorem Alike.encodeUv_eq (h : Alike s s') (hc : s.calv = true) (t : Word) : encodeUv s' t = encodeUv s t := by
  rw [h.eq_of_calibrated hc]; rfl

theorem Alike.encodeOv_eq (h : Alike s s') (hc : s.calv = true) (t : Word) : encodeOv s' t = encodeOv s t := by
  rw [h.eq_of_calibrated hc]; rfl

theorem Alike.protResult_eq (h : Alike s s') (hc : s.calv = true) (scd ocd shunt uv ov : Word) :
    protResult scd ocd shunt uv ov s' = protResult scd ocd shunt uv ov s := by
  rw [h.eq_of_calibrated hc]; rfl

theorem needFlag_congr {flag flag' : Bool} {x x' : Except ErrorCause Results} (hf : flag' = flag)
    (hx : flag = true → x' = x) : needFlag flag' x' = needFlag flag x := by
  subst hf
  cases flag' with
  | false => rfl
  | true => exact hx rfl

/-- `RDST` reads each guarded register behind its flag (R171). -/
theorem Alike.rdstResults_eq (h : Alike s s') : rdstResults s' = rdstResults s := by
  have hg : (if s.calv then s'.gain.setWidth 32 else (0 : Word)) = if s.calv then s.gain.setWidth 32 else 0 :=
    ite_congr rfl (fun hc => by rw [h.gain hc]) fun _ => rfl
  have ho : (if s.calv then s'.offset.signExtend 32 else (0 : Word)) = if s.calv then s.offset.signExtend 32 else 0 :=
    ite_congr rfl (fun hc => by rw [h.offset hc]) fun _ => rfl
  have hs : (if s.init then s'.shunt else (0 : Word)) = if s.init then s.shunt else 0 :=
    ite_congr rfl (fun hi => h.shunt hi) fun _ => rfl
  simp only [rdstResults, flagsWord, h.cfg, h.calv, h.init, hg, ho, hs]

/-- The result of an operation depends on no unwritten register: one that reads the calibration needs its flag first (R189). -/
theorem Alike.localResult_eq (h : Alike s s') (hi : s.init = true → s.calv = true) (i : Instr) :
    localResult s' i = localResult s i := by
  cases i with
  | rdst => simp only [localResult, h.rdstResults_eq]
  | commit w => simp only [localResult, h.calv]
  | crc8 buf => rfl
  | wrreg reg buf => simp only [localResult, h.cfg]
  | rdreg reg n => simp only [localResult, h.cfg]
  | ldcal a b c => rfl
  | conv raw =>
    simp only [localResult, convResult]
    rw [needFlag_congr h.init fun hinit => by rw [h.millivolts_eq (hi hinit)]]
  | uvwin => exact congrArg some (needFlag_congr h.calv fun hc => by simp only [h.millivolts_eq hc])
  | ovwin => exact congrArg some (needFlag_congr h.calv fun hc => by simp only [h.millivolts_eq hc])
  | uvenc t => exact congrArg some (needFlag_congr h.calv fun hc => by rw [h.encodeUv_eq hc])
  | ovenc t => exact congrArg some (needFlag_congr h.calv fun hc => by rw [h.encodeOv_eq hc])
  | uvdec c =>
    simp only [localResult]
    rw [needFlag_congr h.calv fun hc => by rw [h.millivolts_eq hc]]
  | ovdec c =>
    simp only [localResult]
    rw [needFlag_congr h.calv fun hc => by rw [h.millivolts_eq hc]]
  | scdthr amps shunt => simp only [localResult, h.cfg]
  | ocdthr amps shunt => simp only [localResult, h.cfg]
  | scdbits thr range => simp only [localResult, h.cfg]
  | ocdbits thr range => simp only [localResult, h.cfg]
  | recon scd ocd => rfl
  | protcfg scd ocd shunt uv ov => exact congrArg some (needFlag_congr h.calv fun hc => h.protResult_eq hc scd ocd shunt uv ov)

theorem Alike.busAnswer_eq (h : Alike s s') (c : BusCall) : busAnswer c s' = busAnswer c s := by
  simp only [busAnswer, h.transport, h.cfg, h.free]

/-! ### The updates of the state keep two states alike -/

theorem Alike.finish (h : Alike s s') (x : Except ErrorCause Results) : Alike (finish x s) (finish x s') :=
  { h with resp := rfl }

theorem Alike.loadCal (h : Alike s s') (g : BitVec 16) (o : BitVec 8) : Alike (loadCal g o s) (loadCal g o s') :=
  { h with calv := rfl, gain := fun _ => rfl, offset := fun _ => rfl }

theorem Alike.commitShunt (h : Alike s s') (w : Word) : Alike (commitShunt w s) (commitShunt w s') :=
  { h with init := rfl, shunt := fun _ => rfl }

theorem Alike.noteGroups (h : Alike s s') (groups : List (List Byte)) : Alike (noteGroups groups s) (noteGroups groups s') :=
  match groups with
  | [] => h
  | [_] => { h with }
  | _ :: _ :: _ => { h with free := congrArg (· + 1) h.free }

theorem Alike.afterCall (h : Alike s s') (c : BusCall) : Alike (afterCall c s) (afterCall c s') :=
  { h with
    transport := by simp only [afterCall_transport, h.transport, h.cfg, h.free]
    trace := by simp only [afterCall_trace, h.trace, h.cfg]
    free := congrArg (· + 1) h.free }

theorem Alike.afterWriteCrcs (h : Alike s s') (reg : Word) (d : List Byte) :
    Alike (afterWriteCrcs reg d s) (afterWriteCrcs reg d s') := by
  unfold Machine.afterWriteCrcs
  rw [h.cfg]
  split
  · exact h.noteGroups _
  · exact h

theorem Alike.afterWrite (h : Alike s s') (reg : Word) (d : List Byte) (c : BusCall) :
    Alike (afterWrite reg d c s) (afterWrite reg d c s') := (h.afterCall c).afterWriteCrcs reg d

theorem Alike.deliver (h : Alike s s') (bytes : List Byte) : Alike (deliver bytes s) (deliver bytes s') := by
  simp only [deliver_eq, h.cfg]
  exact { h.noteGroups _ with resp := rfl }

theorem Alike.takeEvent (h : Alike s s') (rest : List HostEvent) : Alike (takeEvent rest s) (takeEvent rest s') :=
  { h with inbox := rfl }

theorem Alike.applyReset (h : Alike s s') : Alike (applyReset s) (applyReset s') :=
  { h with calv := rfl, init := rfl, resp := rfl, free := congrArg (· + 1) h.free, gain := nofun, offset := nofun, shunt := nofun }

theorem Alike.resetDuring (h : Alike s s') (r : Request) (called : Bool) :
    Alike (resetDuring r called s) (resetDuring r called s') := by
  unfold Machine.resetDuring
  rw [h.cfg]
  cases abandonedCall s.cfg r called with
  | none => exact h.applyReset
  | some c => exact (h.afterCall c).applyReset

/-! ### Operations and steps -/

/-- An operation performed in two alike states ends in two alike states, or stops alike. -/
theorem Alike.exec (h : Alike s s') (hi : s.init = true → s.calv = true) (i : Instr) :
    AlikeOutcomes (exec i s) (exec i s') := by
  have hlocal := h.localResult_eq hi i
  cases hx : localResult s i with
  | some x =>
    rw [exec_of_localResult hx, exec_of_localResult (hlocal.trans hx)]
    exact h.finish x
  | none =>
    rcases localResult_eq_none hx with ⟨w, rfl, hc⟩ | ⟨a, b, c, rfl, hb⟩ | ⟨buf, rfl⟩ | ⟨reg, buf, c, rfl, hcall⟩ |
      ⟨reg, n, c, rfl, hcall⟩
    · simp only [Machine.exec, execCommit, h.calv, hc, if_true]
      exact (h.commitShunt w).finish (.ok {})
    · simp only [Machine.exec, execLdcal, hb, if_true]
      exact (h.loadCal _ _).finish (.ok _)
    · simp only [Machine.exec, execCrc8, h.cfg]
      exact (h.noteGroups [buf]).finish (.ok _)
    · simp only [Machine.exec, execWrreg, h.cfg, hcall, h.busAnswer_eq]
      cases busAnswer c s with
      | silent => rfl
      | fail => exact (h.afterWrite reg buf c).finish (.error .bus)
      | ok bytes => exact (h.afterWrite reg buf c).finish (.ok {})
    · simp only [Machine.exec, execRdreg, h.cfg, hcall, h.busAnswer_eq]
      cases busAnswer c s with
      | silent => rfl
      | fail => exact (h.afterCall c).finish (.error .bus)
      | ok bytes => exact (h.afterCall c).deliver bytes

/-- Settles O16, event by event: the two states take the same event, and what serves it keeps them alike. -/
theorem unwrittenRegistersCannotBeObserved : Obligations.UnwrittenRegistersCannotBeObserved := by
  intro s s' hi h
  match hin : s.inbox with
  | [] =>
    rw [step_of_no_event hin, step_of_no_event (h.inbox.trans hin)]
    exact h
  | .request r :: rest =>
    cases hd : decode r with
    | some i =>
      rw [step_of_request hin hd, step_of_request (h.inbox.trans hin) hd]
      exact (h.takeEvent rest).exec hi i
    | none =>
      rw [step_of_reserved hin hd, step_of_reserved (h.inbox.trans hin) hd]
      exact (h.takeEvent rest).finish (.error .invariant)
  | .reset :: rest =>
    rw [step_of_reset hin, step_of_reset (h.inbox.trans hin)]
    exact (h.takeEvent rest).applyReset
  | .resetDuring r called :: rest =>
    rw [step_of_resetDuring hin, step_of_resetDuring (h.inbox.trans hin)]
    exact (h.takeEvent rest).resetDuring r called

end Sys2Proof.Claims
end

section
/-! PROOF. The transport call of an operation: which operations make one, what it leaves on the trace, and how an operation whose call
is answered ends (spec/20_memory.md R44, R51, R52, spec/60_exceptions.md R187). -/

namespace Sys2Proof.Machine

open Sys2Proof.Claims

/-- An operation that writes the result state and nothing else makes no call. -/
theorem callOf_of_localResult {s : State} {i : Instr} {x : Except ErrorCause Results} (h : localResult s i = some x) :
    callOf s.cfg i = none := by
  refine Option.eq_none_iff_forall_ne_some.mpr fun c hc => ?_
  rcases callOf_cases hc with ⟨reg, buf, rfl, hcall⟩ | ⟨reg, n, rfl, hcall⟩ <;>
    simp only [localResult, hcall, resultWithoutCall, reduceCtorEq] at h

/-- Every ending leaves the ports as the operation's call leaves them, or alone where it makes none (R44, R52). -/
theorem Ends.call {i : Instr} {s t : State} (h : Ends s i t) :
    (callOf s.cfg i = none ∧ t.trace = s.trace ∧ t.transport = s.transport) ∨
    ∃ c, callOf s.cfg i = some c ∧ t.trace = s.trace ++ [⟨s.cfg.tSettle, c⟩] ∧
      t.transport = (s.transport.reply s.cfg s.free c).2 := by
  cases h with
  | result hx => exact .inl ⟨callOf_of_localResult hx, rfl, rfl⟩
  | calibrated => exact .inl ⟨rfl, rfl, rfl⟩
  | committed => exact .inl ⟨rfl, rfl, rfl⟩
  | crc buf => exact .inl ⟨rfl, rfl, rfl⟩
  | writeFailed call => exact .inr ⟨_, callOf_wrreg call, by simp, by simp⟩
  | written call => exact .inr ⟨_, callOf_wrreg call, by simp, by simp⟩
  | readFailed call => exact .inr ⟨_, callOf_rdreg call, by simp, by simp⟩
  | readAnswered call => exact .inr ⟨_, callOf_rdreg call, by simp, by simp⟩

/-- No operation touches the events that wait. -/
theorem Ends.inbox {i : Instr} {s t : State} (h : Ends s i t) : t.inbox = s.inbox := by cases h <;> simp

/-- Settles O24, by the call of each ending. -/
theorem operationsMakeAtMostOneTransportCall : Obligations.OperationsMakeAtMostOneTransportCall := by
  intro i s t he
  rcases (exec_ends he).call with ⟨-, htrace, htransport⟩ | ⟨c, hc, htrace, -⟩
  · exact .inl ⟨htrace, htransport⟩
  · refine .inr ⟨c, htrace, ?_⟩
    rcases callOf_cases hc with ⟨reg, buf, rfl, hcall⟩ | ⟨reg, n, rfl, hcall⟩
    · obtain ⟨-, hne, hlen, rfl⟩ := wrregCall_some hcall
      exact .inl ⟨reg, buf, _, rfl, hne, hlen, rfl⟩
    · obtain ⟨-, hpos, hlen, rfl⟩ := rdregCall_some hcall
      exact .inr ⟨reg, n, _, rfl, fun hn => by simp [hn] at hpos, hlen, rfl⟩

/-- How an operation whose call is answered ends: `E_BUS` where the call failed, and a `WRREG` `OK` where it did not (R100, R101). -/
theorem exec_of_answered_call {i : Instr} {s : State} {c : BusCall} (hc : callOf s.cfg i = some c) (ha : busAnswer c s ≠ .silent) :
    ∃ t, exec i s = .next t ∧ (busAnswer c s = .fail → t.resp = answerError .eBus) ∧
      ∀ bytes, busAnswer c s = .ok bytes → (∃ reg buf, i = .wrreg reg buf) → t.resp = answerOk {} := by
  rcases callOf_cases hc with ⟨reg, buf, rfl, hcall⟩ | ⟨reg, n, rfl, hcall⟩
  · simp only [exec, execWrreg, hcall]
    cases hb : busAnswer c s with
    | silent => exact absurd hb ha
    | fail => exact ⟨_, rfl, fun _ => rfl, nofun⟩
    | ok bytes => exact ⟨_, rfl, nofun, fun _ _ _ => rfl⟩
  · simp only [exec, execRdreg, hcall]
    cases hb : busAnswer c s with
    | silent => exact absurd hb ha
    | fail => exact ⟨_, rfl, fun _ => rfl, nofun⟩
    | ok bytes => exact ⟨_, rfl, nofun, fun _ _ ⟨_, _, hi⟩ => nomatch hi⟩

/-- Settles O58: the answered call gives the next state and its response, and the ending of the operation the rest. -/
theorem answeredCallEndsTheOperation : Obligations.AnsweredCallEndsTheOperation := by
  intro i s c hc ha
  obtain ⟨t, he, hfail, hok⟩ := exec_of_answered_call hc ha
  have hends := exec_ends he
  have htrace : t.trace = s.trace ++ [⟨s.cfg.tSettle, c⟩] := by
    rcases hends.call with ⟨hnone, -⟩ | ⟨c', hc', htrace, -⟩
    · exact nomatch hnone.symm.trans hc
    · rwa [Option.some.inj (hc.symm.trans hc')]
  have hpersistent : SamePersistent s t :=
    onlyLdcalAndCommitWritePersistentState i s t he (fun _ _ _ hi => nomatch hi ▸ hc) (fun _ hi => nomatch hi ▸ hc)
  exact ⟨t, he, htrace, hpersistent, hends.cfg, hends.inbox, hfail, hok⟩

end Sys2Proof.Machine
end

section
/-! PROOF. The frame of the framer's operations: which registers of the loopback fixture a write can reach, in equal and in different
modes of fixture and block, and that nothing else of the block changes (spec/40_framer.md R99 to R101, log 12). -/

namespace Sys2Proof.Machine

/-! ### What the fixture stores of a frame -/

/-- The bytes the fixture stores of what follows the register address in a frame, where it stores any: the values of the (value, CRC)
pairs in checksum mode, all of it in plain mode. -/
def Loopback.storable (d : Loopback) (body : List Byte) : Option (List Byte) :=
  if d.crcMode then (pairsOf body).map fun ps => ps.map Prod.fst else some body

/-- A write stores the bytes the frame has for the fixture from the register address on, or nothing. -/
theorem loopback_write_storable (cfg : Config) (d : Loopback) (a7 : BusAddr) (reg : Byte) (body : List Byte) :
    (d.busWrite cfg a7 (reg :: body)).2.mem = d.mem ∨
      ∃ v, d.storable body = some v ∧ (d.busWrite cfg a7 (reg :: body)).2.mem = d.mem.writeBytes reg 0 v := by
  unfold Loopback.busWrite Loopback.storable
  split
  · exact .inl rfl
  split
  · exact .inl rfl
  simp only
  split
  · cases pairsOf body with
    | none => exact .inl rfl
    | some ps =>
      simp only
      split
      · exact .inr ⟨_, rfl, rfl⟩
      · exact .inl rfl
  · exact .inr ⟨_, rfl, rfl⟩

/-- A register that no storable byte goes to is left alone by a write. -/
theorem loopback_write_read_other (cfg : Config) (d : Loopback) (a7 : BusAddr) (reg : Byte) (body : List Byte) (a : Nat)
    (h : ∀ v, d.storable body = some v → ∀ i < v.length, a ≠ regAddr reg i) :
    (d.busWrite cfg a7 (reg :: body)).2.mem.read a = d.mem.read a := by
  rcases loopback_write_storable cfg d a7 reg body with hmem | ⟨v, hv, hmem⟩ <;> rw [hmem]
  exact memory_read_writeBytes_other reg v d.mem 0 a fun i hi => by simpa using h v hv i hi

theorem pairsOf_length {buf : List Byte} {ps : List (Byte × Byte)} (h : pairsOf buf = some ps) : buf.length = 2 * ps.length := by
  induction buf using pairsOf.induct generalizing ps with
  | case1 => simp [← Option.some.inj h]
  | case2 => exact nomatch h
  | case3 x k t ih =>
    obtain ⟨qs, hqs, rfl⟩ := Option.map_eq_some_iff.mp h
    simp only [List.length_cons, ih hqs]
    omega

/-- In either mode the fixture stores no more bytes than the frame has after its register address. -/
theorem loopback_storable_length_le {d : Loopback} {body v : List Byte} (h : d.storable body = some v) :
    v.length ≤ body.length := by
  unfold Loopback.storable at h
  split at h
  · obtain ⟨ps, hps, rfl⟩ := Option.map_eq_some_iff.mp h
    rw [pairsOf_length hps, List.length_map]
    omega
  · rw [Option.some.inj h]

/-! ### The frame the block sends -/

/-- A frame carries at most one CRC byte a payload byte (R63, R64). -/
theorem frameW_body_length_le {cfg : Config} {reg : Byte} {d body : List Byte} (h : frameW cfg reg d = reg :: body) :
    body.length ≤ 2 * d.length := by
  unfold frameW at h
  split at h
  · rw [← (List.cons.inj h).2, interleave_length _ _ (by simp)]
  · rw [← (List.cons.inj h).2]
    omega

/-- In the block's mode the fixture takes the payload out of the block's frame. -/
theorem loopback_storable_frameW {cfg : Config} {d : Loopback} {reg : Byte} {buf body : List Byte}
    (hmode : d.crcMode = cfg.crcEn) (h : frameW cfg reg buf = reg :: body) : d.storable body = some buf := by
  unfold Loopback.storable
  rw [hmode]
  unfold frameW at h
  split at h
  next hcrc =>
    rw [← (List.cons.inj h).2, if_pos hcrc, pairsOf_interleave _ _ (by simp), Option.map_some, List.map_fst_zip (by simp)]
  next hcrc => rw [← (List.cons.inj h).2, if_neg hcrc]

/-! ### The registers of the fixture after an operation -/

theorem deviceReg_of_transport_eq {s t : State} (h : t.transport = s.transport) (a : Nat) : t.deviceReg a = s.deviceReg a := by
  simp only [State.deviceReg, h]

/-- An operation leaves a register of the fixture alone where the fixture does so when it serves the operation's call. -/
theorem Ends.deviceReg {i : Instr} {s t : State} {a : Nat} (h : Ends s i t)
    (hcall : ∀ c d, callOf s.cfg i = some c → s.transport = .loopback d → (d.answer s.cfg c).2.mem.read a = d.mem.read a) :
    t.deviceReg a = s.deviceReg a := by
  rcases h.call with ⟨-, -, htransport⟩ | ⟨c, hc, -, htransport⟩
  · exact deviceReg_of_transport_eq htransport a
  · unfold State.deviceReg
    rw [htransport]
    match hs : s.transport with
    | .oracle [] => rfl
    | .oracle (_ :: _) => rfl
    | .loopback d => exact congrArg some (hcall c d hc hs)

/-- `RDREG` leaves every register of the fixture alone (R101). -/
theorem Ends.deviceReg_rdreg {reg n : Word} {s t : State} (h : Ends s (.rdreg reg n) t) (a : Nat) :
    t.deviceReg a = s.deviceReg a := by
  refine h.deviceReg fun c d hc _ => ?_
  rcases callOf_cases hc with ⟨_, _, hi, -⟩ | ⟨reg, n, -, hcall⟩
  · exact nomatch hi
  · obtain ⟨-, -, -, rfl⟩ := rdregCall_some hcall
    exact congrArg (Memory.read · a) (loopback_read_mem _ _ _ _ _)

/-- `WRREG` leaves a register of the fixture alone where no storable byte of its frame goes (R100). -/
theorem Ends.deviceReg_wrreg {reg : Word} {buf : List Byte} {s t : State} {a : Nat} (h : Ends s (.wrreg reg buf) t)
    (ha : ∀ d body v, s.transport = .loopback d → frameW s.cfg (lowByte reg) buf = lowByte reg :: body →
      d.storable body = some v → ∀ i < v.length, a ≠ regAddr (lowByte reg) i) :
    t.deviceReg a = s.deviceReg a := by
  refine h.deviceReg fun c d hc hd => ?_
  rcases callOf_cases hc with ⟨_, _, hi, hcall⟩ | ⟨_, _, hi, -⟩
  · obtain ⟨rfl, rfl⟩ := Instr.wrreg.inj hi
    obtain ⟨-, -, -, rfl⟩ := wrregCall_some hcall
    obtain ⟨body, hf⟩ := frameW_cons s.cfg (lowByte reg) buf
    rw [hf]
    exact loopback_write_read_other _ _ _ _ _ _ fun v => ha d body v hd hf
  · exact nomatch hi

/-- Settles O26: `CRC8` computes one byte-group and makes no call; the registers follow from what the fixture stores of a frame. -/
theorem framerOperationsLeaveTheRest : Obligations.FramerOperationsLeaveTheRest := by
  refine ⟨fun buf s t he => ?_, fun reg n s t he => ?_, fun reg buf s t he => ?_⟩
  · rw [← Host.Outcome.next.inj he]
    exact ⟨by constructor <;> rfl, rfl, by constructor <;> rfl⟩
  · have hends := exec_ends he
    exact ⟨onlyLdcalAndCommitWritePersistentState _ s t he nofun nofun, hends.cfg, hends.inbox, hends.deviceReg_rdreg⟩
  · have hends := exec_ends he
    refine ⟨onlyLdcalAndCommitWritePersistentState _ s t he nofun nofun, hends.cfg, hends.inbox, fun hmode a ha => ?_, fun a ha => ?_⟩
    · refine hends.deviceReg_wrreg fun d body v hd hf hv => ?_
      obtain rfl : v = buf := Option.some.inj (hv.symm.trans (loopback_storable_frameW (hmode d hd) hf))
      exact ha
    · refine hends.deviceReg_wrreg fun d body v _ hf hv i hi => ha i ?_
      exact (hi.trans_le (loopback_storable_length_le hv)).trans_le (frameW_body_length_le hf)

end Sys2Proof.Machine
end

section
/-! PROOF. The request record: what encoding keeps of a decoded request, the record as one number, and the reserved opcodes
(spec/30_encoding.md R60, R62, R77, log 5). -/

namespace Sys2Proof

open Sys2Proof.Machine

/-! ### The opcode map, the decoder and the encoder -/

/-- A request that decodes has the opcode of a row (R62, R77). -/
theorem exists_row_of_decode {r : Request} {i : Instr} (h : decode r = some i) : ∃ row ∈ opcodeMap, row.op = r.op := by
  by_contra hno
  have hnone : decode r = none := (decode_none_iff r).mpr fun row hrow hop => hno ⟨row, hrow, hop⟩
  exact nomatch hnone.symm.trans h

/-- The payload of a request fits `IBUF`, so it is the payload of a request it is put back into (R31, R60). -/
theorem payload_mk_padBuf_payload (r : Request) (op : Byte) (a0 a1 a2 a3 a4 : Word) :
    (Request.mk op a0 a1 a2 a3 a4 (BitVec.ofNat 5 r.payload.length) (padBuf r.payload)).payload = r.payload :=
  payload_of_padBuf _ r.payload (payload_length_le r) rfl rfl

/-- Settles O3: in each row of the opcode map the encoder puts back the fields the decoder has read. -/
theorem decodeThenEncodeKeepsEveryNamedField : Obligations.DecodeThenEncodeKeepsEveryNamedField := by
  intro r i h
  obtain ⟨row, hrow, hop⟩ := exists_row_of_decode h
  suffices hkept : (encode i).op = row.op ∧
      (0 < row.operands → (encode i).a0 = r.a0) ∧ (1 < row.operands → (encode i).a1 = r.a1) ∧
      (2 < row.operands → (encode i).a2 = r.a2) ∧ (3 < row.operands → (encode i).a3 = r.a3) ∧
      (4 < row.operands → (encode i).a4 = r.a4) ∧ (row.buffer = true → (encode i).payload = r.payload) from
    ⟨hkept.1.trans hop, row, hrow, hop, hkept.2⟩
  simp only [opcodeMap, List.mem_cons, List.not_mem_nil, or_false] at hrow
  rcases hrow with rfl | rfl | rfl | rfl | rfl | rfl | rfl | rfl | rfl | rfl | rfl | rfl | rfl | rfl | rfl | rfl | rfl |
    rfl | rfl
  all_goals
    rw [decode, ← hop] at h
    obtain rfl := Option.some.inj h
    simp [encode, Request.blank, Request.withBuf, payload_mk_padBuf_payload]

/-! ### The request record as one number -/

/-- The two parts of a concatenation. -/
theorem append_inj {v w : Nat} {x x' : BitVec v} {y y' : BitVec w} (h : x ++ y = x' ++ y') : x = x' ∧ y = y' := by
  constructor
  · simpa [BitVec.extractLsb'_append_eq_of_le] using congrArg (BitVec.extractLsb' w v) h
  · simpa [BitVec.extractLsb'_append_eq_of_add_le] using congrArg (BitVec.extractLsb' 0 w) h

theorem bufBits_injective : Function.Injective bufBits := by
  intro b b' h
  refine Vector.ext fun i hi => ?_
  calc b[i] = (bufBits b).extractLsb' (8 * i) 8 := (bufBits_extract b ⟨i, hi⟩).symm
    _ = b'[i] := by rw [h]; exact bufBits_extract b' ⟨i, hi⟩

/-- A number carries at most one record. -/
theorem toBits_injective : Function.Injective Request.toBits := by
  rintro ⟨op, a0, a1, a2, a3, a4, ilen, ibuf⟩ r' h
  obtain ⟨h, rfl⟩ := append_inj h
  obtain ⟨h, rfl⟩ := append_inj h
  obtain ⟨h, rfl⟩ := append_inj h
  obtain ⟨h, rfl⟩ := append_inj h
  obtain ⟨h, rfl⟩ := append_inj h
  obtain ⟨h, rfl⟩ := append_inj h
  obtain ⟨h, rfl⟩ := append_inj h
  obtain rfl := bufBits_injective h
  rfl

theorem extractLsb'_extractLsb' {n : Nat} (w : BitVec n) {i j k l : Nat} (h : j + k ≤ l) :
    (w.extractLsb' i l).extractLsb' j k = w.extractLsb' (i + j) k := by
  apply BitVec.eq_of_getLsbD_eq
  intro b hb
  have hin : j + b < l := by omega
  simp [hin, Nat.add_assoc]

/-- Two numbers of 31 bytes with the same bytes are one. -/
theorem eq_of_bytes_eq {x y : BitVec 248} (h : ∀ i : Fin 31, x.extractLsb' (8 * i.val) 8 = y.extractLsb' (8 * i.val) 8) :
    x = y := by
  apply BitVec.eq_of_getLsbD_eq
  intro b hb
  have hbyte := congrArg (·.getLsbD (b % 8)) (h ⟨b / 8, by omega⟩)
  have hlt : b % 8 < 8 := Nat.mod_lt _ (by decide)
  simpa [hlt, Nat.div_add_mod] using hbyte

/-- The buffer of the record a number stands for is carried by the number's upper 248 bits. -/
theorem bufBits_ofBits_ibuf (w : BitVec 421) : bufBits (Request.ofBits w).ibuf = w.extractLsb' 173 248 := by
  refine eq_of_bytes_eq fun i => ?_
  rw [bufBits_extract, extractLsb'_extractLsb' w (by omega)]
  simp [Request.ofBits]

/-- A field of a number continues the bits above it downwards. -/
theorem append_field {n : Nat} {w : BitVec n} {start len len' : Nat} {above : BitVec len'}
    (h : above = w.extractLsb' (start + len) len') :
    above ++ w.extractLsb' start len = w.extractLsb' start (len' + len) := by
  rw [h, BitVec.extractLsb'_append_extractLsb'_eq_extractLsb' rfl]

theorem toBits_ofBits (w : BitVec 421) : (Request.ofBits w).toBits = w := by
  have hfields : (Request.ofBits w).toBits = w.extractLsb' 0 421 :=
    append_field <| append_field <| append_field <| append_field <| append_field <| append_field <| append_field <|
      bufBits_ofBits_ibuf w
  rw [hfields, BitVec.extractLsb'_eq_self]

/-- Settles O4: every number is that of the record it stands for, and no other record has it. -/
theorem requestRecordPacksWithoutLoss : Obligations.RequestRecordPacksWithoutLoss :=
  ⟨fun r => toBits_injective (toBits_ofBits r.toBits), toBits_ofBits⟩

/-- Settles O1: six words, evaluated. -/
theorem wordsDecodeToTheirOperations : Obligations.WordsDecodeToTheirOperations := by
  unfold Obligations.WordsDecodeToTheirOperations
  decide +kernel

/-- Settles O6: a reserved opcode is no row's, so its request decodes to nothing. -/
theorem reservedOpcodePerformsNothing : Obligations.ReservedOpcodePerformsNothing :=
  ⟨by decide, rfl, fun _ r _ hin hrow => step_of_reserved hin ((decode_none_iff r).mpr hrow)⟩

end Sys2Proof
end

section
/-! PROOF. A reserved operand ends an operation before anything else is checked or done (spec/30_encoding.md R78). -/

namespace Sys2Proof.Machine

open Sys2Proof.Claims

theorem wrregCall_of_reserved {cfg : Config} {reg : Word} (d : List Byte) (h : 0xFF < reg.toNat) :
    wrregCall cfg reg d = .error .invariant := by
  simp only [wrregCall, (isByte_false_iff reg).mpr h, Bool.false_eq_true, not_false_eq_true, if_true]

theorem rdregCall_of_reserved {cfg : Config} {reg : Word} (n : Word) (h : 0xFF < reg.toNat) :
    rdregCall cfg reg n = .error .invariant := by
  simp only [rdregCall, (isByte_false_iff reg).mpr h, Bool.false_eq_true, not_false_eq_true, if_true]

theorem convResult_of_reserved {raw : Word} (s : State) (h : 0x3FFF < raw.toNat) : convResult raw s = .error .invariant := by
  simp only [convResult, (isRaw_false_iff raw).mpr h, Bool.false_eq_true, not_false_eq_true, if_true]

theorem decodeRange_eq_none {w : Word} (h : 2 < w.toNat) : decodeRange w = none := by
  unfold decodeRange
  split <;> [omega; omega; omega; rfl]

theorem decodeResolvedRange_eq_none {w : Word} (h : 1 < w.toNat) : decodeResolvedRange w = none := by
  unfold decodeResolvedRange
  split <;> [omega; omega; rfl]

theorem reconResult_of_reserved {scd ocd : Word} (h : 2 < scd.toNat ∨ 2 < ocd.toNat) :
    reconResult scd ocd = .error .invariant := by
  unfold reconResult
  rcases h with h | h <;> rw [decodeRange_eq_none h]
  cases decodeRange scd <;> rfl

/-- A range that is no range to encode for, and a value that is no entry's (R152, R153). -/
theorem bitsResult_of_reserved {t : Table} {thr range : Word} (h : 1 < range.toNat ∨ ∀ e ∈ t.entries, e.mv ≠ thr) :
    bitsResult t thr range = .error .invariant := by
  rcases h with h | h
  · simp only [bitsResult, decodeResolvedRange_eq_none h]
  · have hfind : (t.entries.find? fun e => e.mv = thr) = none := List.find?_eq_none.mpr fun e he => by simpa using h e he
    unfold bitsResult
    cases decodeResolvedRange range with
    | none => rfl
    | some r => simp only [hfind]

/-- An operation with a reserved operand ends with `E_INVARIANT`, whatever the flags are. -/
theorem localResult_of_reserved {s : State} {i : Instr} (h : ReservedOperand s.cfg i) :
    localResult s i = some (.error .invariant) := by
  cases i with
  | wrreg reg buf => simp only [localResult, wrregCall_of_reserved buf h, resultWithoutCall]
  | rdreg reg n => simp only [localResult, rdregCall_of_reserved n h, resultWithoutCall]
  | ldcal a b c =>
    have hbytes : ¬ (isByte a && isByte b && isByte c) = true := by
      simp only [Bool.and_eq_true, isByte_iff]
      rcases h with h | h | h <;> omega
    exact if_neg hbytes
  | conv raw => exact congrArg some (convResult_of_reserved s h)
  | uvdec c => exact congrArg some (if_pos (Bool.not_eq_true _ ▸ (isByte_false_iff c).mpr h))
  | ovdec c => exact congrArg some (if_pos (Bool.not_eq_true _ ▸ (isByte_false_iff c).mpr h))
  | scdbits thr range => exact congrArg some (bitsResult_of_reserved h)
  | ocdbits thr range => exact congrArg some (bitsResult_of_reserved h)
  | recon scd ocd => exact congrArg some (reconResult_of_reserved h)
  | _ => exact False.elim h

/-- Settles O21, by the result of the operation. -/
theorem reservedOperandIsRefusedFirst : Obligations.ReservedOperandIsRefusedFirst :=
  fun _ _ h => exec_of_localResult (localResult_of_reserved h)

end Sys2Proof.Machine
end

section
/-! PROOF. The frames on the bus: what a `WRREG` sends and what an `RDREG` makes of its response, in either mode, against a script
(spec/30_encoding.md R63 to R68, spec/40_framer.md R94 to R101). -/

namespace Sys2Proof.Machine

open Sys2Proof.Claims

/-- A scripted answer is taken off the script (R46, log 6). -/
theorem afterCall_of_oracle {s : State} {a : BusAnswer} {rest : List BusAnswer} (h : s.transport = .oracle (a :: rest))
    (c : BusCall) :
    afterCall c s = { s with
      transport := .oracle rest
      trace := s.trace ++ [⟨s.cfg.tSettle, c⟩]
      free := s.free + 1 } := by
  simp only [afterCall, h, Transport.reply]

theorem addrW_eq (a : BusAddr) : addrW a = addressByte a false := by revert a; decide +kernel

theorem addrR_eq (a : BusAddr) : addrR a = addressByte a true := by revert a; decide +kernel

/-! ### `WRREG` -/

/-- A `WRREG` whose call is answered from the script. -/
theorem exec_wrreg_of_oracle {s : State} {reg : Word} {d : List Byte} {a : BusAnswer} {rest : List BusAnswer}
    (hreg : reg.toNat ≤ 0xFF) (hpos : 1 ≤ d.length) (hmax : d.length ≤ 8) (ht : s.transport = .oracle (a :: rest))
    (ha : a ≠ .silent) :
    exec (.wrreg reg d) s =
      .next { afterWrite reg d (.write s.cfg.devAddr (frameW s.cfg (lowByte reg) d)) s with resp := writeResponse a } := by
  simp only [exec, execWrreg, wrregCall_ok hreg hpos hmax, busAnswer_oracle ht]
  cases a with
  | silent => exact absurd rfl ha
  | fail => rfl
  | ok bytes => rfl

theorem frameW_plain {cfg : Config} (h : cfg.crcEn = false) (reg : Byte) (d : List Byte) : frameW cfg reg d = reg :: d := by
  simp only [frameW, h, Bool.false_eq_true, if_false]

theorem afterWriteCrcs_plain {s : State} (h : s.cfg.crcEn = false) (reg : Word) (d : List Byte) : afterWriteCrcs reg d s = s := by
  simp only [afterWriteCrcs, h, Bool.false_eq_true, if_false]

/-- Settles O34: in plain mode the frame has no CRC bytes, and none is computed. -/
theorem plainWriteFrameIsAddressAndPayload : Obligations.PlainWriteFrameIsAddressAndPayload := by
  intro s reg d a rest hcrc hreg hpos hmax ht ha
  rw [exec_wrreg_of_oracle hreg hpos hmax ht ha, frameW_plain hcrc, afterWrite, afterWriteCrcs_plain (by simpa using hcrc),
    afterCall_of_oracle ht]
  rfl

/-- The CRC byte of a payload byte covers the byte-group of that byte (R94, R95). -/
theorem crc_writeGroups_get (cfg : Config) (reg : Byte) (d : List Byte) {i : Nat} (h : i < d.length) :
    ((writeGroups cfg.devAddr reg d).map (crc8 cfg))[i]? = some (writeCrc cfg reg d i) := by
  rw [List.getElem?_map, writeGroups_get _ _ _ _ h, addrW_eq, Option.map_some, apply_ite (crc8 cfg), writeCrc]

/-- A frame in checksum mode: the register address, then pairs of a payload byte and its CRC byte (R63). -/
theorem frameW_checksum {cfg : Config} (h : cfg.crcEn = true) (reg : Byte) (d : List Byte) :
    (frameW cfg reg d).length = 1 + 2 * d.length ∧ (frameW cfg reg d)[0]? = some reg ∧
    ∀ i < d.length, (frameW cfg reg d)[1 + 2 * i]? = d[i]? ∧ (frameW cfg reg d)[2 + 2 * i]? = some (writeCrc cfg reg d i) := by
  have hlen : d.length = ((writeGroups cfg.devAddr reg d).map (crc8 cfg)).length := by simp
  have hframe : frameW cfg reg d = reg :: interleave d ((writeGroups cfg.devAddr reg d).map (crc8 cfg)) := if_pos h
  rw [hframe]
  refine ⟨?_, rfl, fun i hi => ?_⟩
  · rw [List.length_cons, interleave_length _ _ hlen, Nat.add_comm]
  · obtain ⟨hbyte, hcrc⟩ := interleave_get d _ hlen i
    rw [show 1 + 2 * i = 2 * i + 1 by omega, show 2 + 2 * i = 2 * i + 1 + 1 by omega]
    exact ⟨hbyte, hcrc.trans (crc_writeGroups_get cfg reg d hi)⟩

/-- Settles O33, by the bytes of the frame. -/
theorem writeFrameCarriesACrcAfterEveryByte : Obligations.WriteFrameCarriesACrcAfterEveryByte := by
  intro s reg d a rest hcrc hreg hpos hmax ht ha
  have he := exec_wrreg_of_oracle hreg hpos hmax ht ha
  have hends := exec_ends he
  exact ⟨_, _, he, rfl, by simp, by simp [ht, Transport.reply],
    onlyLdcalAndCommitWritePersistentState _ s _ he nofun nofun, hends.cfg, hends.inbox,
    frameW_checksum hcrc (lowByte reg) d⟩

/-! ### `RDREG` -/

/-- An `RDREG` whose call is answered from the script with as many bytes as it asks for. -/
theorem exec_rdreg_of_oracle {s : State} {reg n : Word} {buf : List Byte} {rest : List BusAnswer} (hreg : reg.toNat ≤ 0xFF)
    (hpos : 1 ≤ n.toNat) (hmax : n.toNat ≤ 2 * s.cfg.variant.channels) (ht : s.transport = .oracle (.ok buf :: rest))
    (hlen : buf.length = responseSize s.cfg n.toNat) :
    exec (.rdreg reg n) s =
      .next (deliver buf (afterCall (.writeRead s.cfg.devAddr [lowByte reg] (responseSize s.cfg n.toNat)) s)) := by
  simp only [exec, execRdreg, rdregCall_ok hreg hpos hmax, busAnswer_oracle ht, shapeAnswer, fillTo_of_length _ hlen]

theorem responseSize_plain {cfg : Config} (h : cfg.crcEn = false) (n : Nat) : responseSize cfg n = n := by
  simp only [responseSize, h, Bool.false_eq_true, if_false]

theorem responseSize_checksum {cfg : Config} (h : cfg.crcEn = true) (n : Nat) : responseSize cfg n = 2 * n := if_pos h

theorem deliver_plain {s : State} (h : s.cfg.crcEn = false) (bytes : List Byte) : deliver bytes s = respondBytes bytes s := by
  simp only [deliver, payloadOf, checkedGroups, noteGroups, h, Bool.false_eq_true, if_false]

/-- Settles O36: in plain mode the response is the payload, and no CRC is computed. -/
theorem plainReadDeliversTheResponse : Obligations.PlainReadDeliversTheResponse := by
  intro s reg n buf rest hcrc hreg hpos hmax ht hlen
  have hsize := responseSize_plain hcrc n.toNat
  rw [exec_rdreg_of_oracle hreg hpos hmax ht (hlen.trans hsize.symm), deliver_plain (by simpa using hcrc), hsize,
    afterCall_of_oracle ht]
  rfl

/-- The CRC byte expected for a value of a response (R97), where the values are at the even places of the response. -/
theorem expectedCrc_eq_readCrc (cfg : Config) {v buf : List Byte} (h : ∀ i : Nat, v[i]? = buf[2 * i]?) (i : Nat) :
    expectedCrc cfg v i = readCrc cfg buf i := by
  have hget : ∀ j : Nat, v.getD j 0 = buf.getD (2 * j) 0 := fun j => by simp only [List.getD_eq_getElem?_getD, h]
  rw [expectedCrc, apply_ite (crc8 cfg), hget, hget, addrR_eq, readCrc]

/-- The response of an `RDREG` in checksum mode: all the values when every CRC byte is the expected one, else `E_CRC` (R98). -/
theorem deliver_checksum_resp {s : State} (hcrc : s.cfg.crcEn = true) {buf : List Byte} {n : Nat} (hlen : buf.length = 2 * n) :
    ((∀ i < n, buf[2 * i + 1]? = some (readCrc s.cfg buf i)) →
      ∃ v, (deliver buf s).resp = okBytes v ∧ v.length = n ∧ ∀ i < n, v[i]? = buf[2 * i]?) ∧
    ((∃ i < n, buf[2 * i + 1]? ≠ some (readCrc s.cfg buf i)) → (deliver buf s).resp = errorResponse .crc) := by
  obtain ⟨v, hv, hget, hcheck⟩ := checkR_cases s.cfg buf n hlen
  simp only [expectedCrc_eq_readCrc s.cfg hget] at hcheck
  have hpayload : payloadOf s.cfg buf = checkR s.cfg buf := if_pos hcrc
  rw [deliver_eq, hpayload]
  rcases hcheck with ⟨hsome, hall⟩ | ⟨hnone, i, hi, hbad⟩
  · rw [hsome]
    exact ⟨fun _ => ⟨v, rfl, hv, fun i _ => hget i⟩, fun ⟨i, hi, hbad⟩ => absurd (hall i hi) hbad⟩
  · rw [hnone]
    exact ⟨fun hall => absurd (hall i hi) hbad, fun _ => rfl⟩

/-- Settles O35, by the response to the bytes of the one call. -/
theorem readDeliversAllVerifiedBytesOrNone : Obligations.ReadDeliversAllVerifiedBytesOrNone := by
  intro s reg n buf rest hcrc hreg hpos hmax ht hlen
  have hsize := responseSize_checksum hcrc n.toNat
  have he := exec_rdreg_of_oracle hreg hpos hmax ht (hlen.trans hsize.symm)
  rw [hsize] at he
  exact ⟨_, he, by simp [lowByte], by simp [ht, Transport.reply],
    onlyLdcalAndCommitWritePersistentState _ s _ he nofun nofun, (exec_ends he).cfg, (exec_ends he).inbox,
    deliver_checksum_resp (s := afterCall _ s) hcrc hlen⟩

end Sys2Proof.Machine
end

section
/-! PROOF. The scaler's calibration and its two encode operations, in terms of division and remainder (spec/41_scaler.md R110 to R127). -/

namespace Sys2Proof.Machine

open Sys2Proof.Claims

/-! ### `LDCAL` -/

theorem calGain_eq {a c : Word} (ha : a.toNat ≤ 0xFF) (hc : c.toNat ≤ 0xFF) :
    calGain a c = BitVec.ofNat 16 (365 + g5 a.toNat c.toNat) := by
  rw [calGain, gainTrim_toNat a c ha hc, g5, gainBase]

theorem calOffset_eq (b : Word) : calOffset b = BitVec.ofNat 8 b.toNat := (BitVec.ofNat_toNat 8 b).symm

/-- A gain in a result register (R32, R69). -/
theorem calGain_setWidth {a c : Word} (ha : a.toNat ≤ 0xFF) (hc : c.toNat ≤ 0xFF) :
    (calGain a c).setWidth 32 = BitVec.ofNat 32 (365 + g5 a.toNat c.toNat) := by
  have hlt : 365 + g5 a.toNat c.toNat < 2 ^ 16 := by unfold g5; omega
  rw [calGain_eq ha hc, BitVec.setWidth_ofNat_of_le_of_lt (by decide) hlt]

/-- An offset byte in a result register, as a signed number (R32, R70). -/
theorem calOffset_signExtend {b : Word} (hb : b.toNat ≤ 0xFF) :
    (calOffset b).signExtend 32 = BitVec.ofInt 32 (if b.toNat < 128 then (b.toNat : Int) else (b.toNat : Int) - 256) := by
  have hbyte : (calOffset b).toNat = b.toNat := by rw [calOffset_eq, BitVec.toNat_ofNat, Nat.mod_eq_of_lt (by omega)]
  have hsign : 2 * b.toNat < 2 ^ 8 ↔ b.toNat < 128 := by omega
  simp only [BitVec.signExtend, BitVec.toInt_eq_toNat_cond, hbyte, hsign]
  rfl

/-- Settles O41: three bytes are loaded, and an operand that is no byte is a reserved one. -/
theorem ldcalLoadsTheTrimBytes : Obligations.LdcalLoadsTheTrimBytes := by
  refine ⟨fun a b c s ha hb hc => ?_, fun a b c s h => reservedOperandIsRefusedFirst (.ldcal a b c) s h⟩
  have hbytes : (isByte a && isByte b && isByte c) = true := by simp [ha, hb, hc]
  have he : exec (.ldcal a b c) s = _ := if_pos hbytes
  rw [he, calGain_setWidth ha hc, calOffset_signExtend hb, calGain_eq ha hc, calOffset_eq]
  rfl

/-! ### `UVENC` and `OVENC` -/

theorem needFlag_of_set {α : Type} {flag : Bool} {x : Except ErrorCause α} (h : flag = true) : needFlag flag x = x := if_pos h

theorem needFlag_of_clear {α : Type} {flag : Bool} {x : Except ErrorCause α} (h : flag = false) :
    needFlag flag x = .error .uninit := by
  rw [h]; rfl

/-- The transfer function at a raw code, for the calibration of a state (R112). -/
theorem millivolts_eq (s : State) (raw : Nat) : millivolts s raw = mv (gain s) (offset s) raw := xfer_eq _ _ _

/-- The code of a target, for the calibration of a state (R72, R116, R117). -/
theorem codeOfRaw_rawOfTarget (s : State) (t : Nat) :
    codeOfRaw (rawOfTarget (gainOf s) (offsetOf s) t) = code (gain s) (offset s) t := by
  rw [codeOfRaw_eq, rawOfTarget_eq]
  rfl

/-- A target checked against the window of the trip codes `lo` to `hi` and encoded, the trip code of a code being `raw` of it: what
`encodeUv` and `encodeOv` have in common (R126, R127). -/
def encodeTarget (s : State) (lo hi : Nat) (raw : Nat → Nat) (ov : Bool) (t : Word) : Except ErrorCause (Nat × Int) :=
  if insideWindow (millivolts s lo) (millivolts s hi) t then
    .ok (codeOfRaw (rawOfTarget (gainOf s) (offsetOf s) t.toNat),
      millivolts s (raw (codeOfRaw (rawOfTarget (gainOf s) (offsetOf s) t.toNat))))
  else .error (.unobtainable (signedWord (millivolts s lo)) (signedWord (millivolts s hi)) ov)

theorem encodeUv_eq (s : State) (t : Word) : encodeUv s t = encodeTarget s uvLo uvHi uvRaw false t := rfl

theorem encodeOv_eq (s : State) (t : Word) : encodeOv s t = encodeTarget s ovLo ovHi ovRaw true t := rfl

variable {s : State} {lo hi : Nat} {raw : Nat → Nat} {ov : Bool} {t : Word}

/-- Outside the closed window a target has no code (R115). -/
theorem encodeTarget_outside
    (h : (t.toNat : Int) < mv (gain s) (offset s) lo ∨ mv (gain s) (offset s) hi < t.toNat) :
    encodeTarget s lo hi raw ov t =
      .error (.unobtainable (signedWord (mv (gain s) (offset s) lo)) (signedWord (mv (gain s) (offset s) hi)) ov) := by
  have hout : ¬ insideWindow (millivolts s lo) (millivolts s hi) t = true := by
    rw [insideWindow_iff, millivolts_eq, millivolts_eq]; omega
  rw [encodeTarget, if_neg hout, millivolts_eq, millivolts_eq]

/-- Inside the window it has one, with the millivolts of its trip code as the achieved value (R116 to R118). -/
theorem encodeTarget_inside (hraw : ∀ c ≤ 0xFF, raw c = lo + 16 * c) (hlo : mv (gain s) (offset s) lo ≤ t.toNat)
    (hhi : (t.toNat : Int) ≤ mv (gain s) (offset s) hi) :
    encodeTarget s lo hi raw ov t = .ok (code (gain s) (offset s) t.toNat,
      mv (gain s) (offset s) (lo + 16 * code (gain s) (offset s) t.toNat)) := by
  have hin : insideWindow (millivolts s lo) (millivolts s hi) t = true := by
    rw [insideWindow_iff, millivolts_eq, millivolts_eq]; exact ⟨hlo, hhi⟩
  rw [encodeTarget, if_pos hin, hraw _ (Nat.le_of_lt_succ (codeOfRaw_lt _)), millivolts_eq, codeOfRaw_rawOfTarget]
  push_cast
  rfl

/-- What an encode operation delivers: `E_UNINIT` without a calibration, `E_UNOBTAINABLE` with the window outside it, else code and
achieved value (R126, R127). -/
theorem exec_encodeTarget {i : Instr}
    (he : exec i s = .next (finish (needFlag s.calv ((encodeTarget s lo hi raw ov t).map codeResults)) s))
    (hraw : ∀ c ≤ 0xFF, raw c = lo + 16 * c) :
    (s.calv = false → exec i s = .next { s with resp := answerError .eUninit }) ∧
    (s.calv = true → (t.toNat : Int) < mv (gain s) (offset s) lo ∨ mv (gain s) (offset s) hi < t.toNat →
      exec i s = .next { s with
        resp := answerWindow (mv (gain s) (offset s) lo) (mv (gain s) (offset s) hi) (if ov then 1 else 0) }) ∧
    (s.calv = true → mv (gain s) (offset s) lo ≤ t.toNat → (t.toNat : Int) ≤ mv (gain s) (offset s) hi →
      exec i s = .next { s with resp := (answerOk
        { r0 := BitVec.ofNat 32 (code (gain s) (offset s) t.toNat)
          r1 := BitVec.ofInt 32 (mv (gain s) (offset s) (lo + 16 * code (gain s) (offset s) t.toNat)) }) }) := by
  refine ⟨fun hc => ?_, fun hc hout => ?_, fun hc hlo hhi => ?_⟩
  · rw [he, needFlag_of_clear hc]; rfl
  · rw [he, needFlag_of_set hc, encodeTarget_outside hout]; rfl
  · rw [he, needFlag_of_set hc, encodeTarget_inside hraw hlo hhi]; rfl

/-- Settles O44, as the encode operation of the under-voltage window. -/
theorem uvencValidatesAndEncodes : Obligations.UvencValidatesAndEncodes := fun t s =>
  exec_encodeTarget (i := .uvenc t) (s := s) rfl fun _ => uvRaw_eq

/-- Settles O45, as the encode operation of the over-voltage window. -/
theorem ovencValidatesAndEncodes : Obligations.OvencValidatesAndEncodes := fun t s =>
  exec_encodeTarget (i := .ovenc t) (s := s) rfl fun _ => ovRaw_eq

end Sys2Proof.Machine
end

section
/-! PROOF. The CRC-8 as `CRC8` delivers it, and the facts about it: its values, its linearity over XOR, and what a change of one
byte does (spec/40_framer.md R92, R93, R99). -/

namespace Sys2Proof.Machine

/-- The accumulator after one byte more (R92). -/
theorem crcAcc_take_succ (start : Byte) (buf : List Byte) (j : Nat) (h : j < buf.length) :
    crcAcc start (buf.take (j + 1)) = crcStep (crcAcc start (buf.take j)) buf[j] := by
  rw [List.take_succ_eq_append_getElem h, crcAcc_append]
  rfl

/-- `CRC8` in any state: the CRC of its buffer as result, and the last accumulator in `CRCACC` (R99, R37). -/
theorem exec_crc8 (buf : List Byte) (s : State) :
    exec (.crc8 buf) s = .next { s with
      crcacc := crcAcc s.cfg.crcInit buf
      resp := okResponse { r0 := (crc8 s.cfg buf).setWidth 32 } } := rfl

/-- Settles O30: the accumulators are those of the buffer's prefixes, and the last of them is the one `CRCACC` keeps. -/
theorem crcOperationFoldsItsBytes : Obligations.CrcOperationFoldsItsBytes := by
  intro buf s
  refine ⟨fun j => crcAcc s.cfg.crcInit (buf.take j), crcAcc s.cfg.crcInit buf, rfl, crcAcc_take_succ _ buf, ?_⟩
  simp only [exec_crc8, List.take_length, BitVec.ofNat_toNat]
  rfl

/-- With zero parameters the CRC of a byte-group is the accumulator that starts from 0 (R92). -/
theorem crc8_of_zero_parameters {cfg : Config} (hinit : cfg.crcInit = 0) (hxor : cfg.crcXorOut = 0) (group : List Byte) :
    crc8 cfg group = crcAcc 0 group := by
  rw [crc8, hinit, hxor]
  exact BitVec.xor_zero

/-- A zero byte leaves a zero accumulator at zero (R93 (c)). -/
theorem crcAcc_zero_cons_zero (group : List Byte) : crcAcc 0 (0 :: group) = crcAcc 0 group := by
  rw [crcAcc, List.foldl_cons, crcStep_zero_zero, crcAcc]

/-- From a zero accumulator the CRC of a XOR is the XOR of the CRCs (R93 (c)). -/
theorem crcAcc_zero_xor {s t : List Byte} (h : s.length = t.length) :
    crcAcc 0 (List.zipWith (· ^^^ ·) s t) = crcAcc 0 s ^^^ crcAcc 0 t :=
  crcAcc_xor s t 0 0 h

/-- Settles O32: the values by evaluation, linearity and leading zeros of the accumulator, and the bijections since a byte-group's
last byte enters injectively. -/
theorem crcFacts : Obligations.CrcFacts := by
  refine ⟨fun cfg hinit hxor => ?_, fun cfg => ?_⟩
  · simp only [crc8_of_zero_parameters hinit hxor]
    exact ⟨by decide +kernel, by decide +kernel, fun _ _ => crcAcc_zero_xor, crcAcc_zero_cons_zero⟩
  · exact ⟨byte_bijective (crc8_last_injective cfg []), fun a => byte_bijective (crc8_last_injective cfg [a]),
      fun a r => byte_bijective (crc8_last_injective cfg [a, r])⟩

end Sys2Proof.Machine
end

section
/-! PROOF. The two errors of the bus told apart: `E_BUS` where the operation's call failed, `E_CRC` where a CRC byte of its response
is not the expected one, and no other operation or ending has either of them (spec/40_framer.md R98, R105, spec/60_exceptions.md R186,
R187). -/

namespace Sys2Proof.Machine

open Sys2Proof.Claims

/-! ### The errors an operation finds without the bus -/

theorem needFlag_error {α : Type} {flag : Bool} {x : Except ErrorCause α} {e : ErrorCause} (h : needFlag flag x = .error e) :
    e = .uninit ∨ x = .error e := by
  cases flag with
  | true => exact .inr h
  | false => exact .inl (Except.error.inj h).symm

theorem needFlag_ok_error {α : Type} {flag : Bool} {a : α} {e : ErrorCause} (h : needFlag flag (.ok a) = .error e) :
    e = .uninit := by
  rcases needFlag_error h with he | h
  · exact he
  · exact nomatch h

/-- An operand test in front of a flag test, as in `UVDEC` and `OVDEC` (R128, R129). -/
theorem operandTest_needFlag_ok_error {p : Prop} [Decidable p] {flag : Bool} {r : Results} {e : ErrorCause}
    (h : (if p then .error .invariant else needFlag flag (.ok r)) = Except.error e) : e = .invariant ∨ e = .uninit := by
  split at h
  · exact .inl (Except.error.inj h).symm
  · exact .inr (needFlag_ok_error h)

theorem convResult_error {raw : Word} {s : State} {e : ErrorCause} (h : convResult raw s = .error e) :
    e = .invariant ∨ e = .uninit := by
  unfold convResult at h
  split at h
  · exact .inl (Except.error.inj h).symm
  · rcases needFlag_error h with rfl | h
    · exact .inr rfl
    · split at h
      · exact .inl (Except.error.inj h).symm
      · exact nomatch h

theorem encodeUv_map_error {s : State} {t : Word} {e : ErrorCause} (h : (encodeUv s t).map codeResults = .error e) :
    ∃ lo hi, e = .unobtainable lo hi false := by
  rcases encodeUv_cases s t with ⟨p, hp⟩ | ⟨lo, hi, hp⟩ <;> rw [hp] at h
  · exact nomatch h
  · exact ⟨lo, hi, (Except.error.inj h).symm⟩

theorem encodeOv_map_error {s : State} {t : Word} {e : ErrorCause} (h : (encodeOv s t).map codeResults = .error e) :
    ∃ lo hi, e = .unobtainable lo hi true := by
  rcases encodeOv_cases s t with ⟨p, hp⟩ | ⟨lo, hi, hp⟩ <;> rw [hp] at h
  · exact nomatch h
  · exact ⟨lo, hi, (Except.error.inj h).symm⟩

theorem bitsResult_error {t : Table} {thr range : Word} {e : ErrorCause} (h : bitsResult t thr range = .error e) :
    e = .invariant := by
  unfold bitsResult at h
  split at h
  · exact (Except.error.inj h).symm
  split at h
  · exact (Except.error.inj h).symm
  split at h
  · exact (Except.error.inj h).symm
  · exact nomatch h

theorem reconResult_error {scd ocd : Word} {e : ErrorCause} (h : reconResult scd ocd = .error e) :
    e = .range ∨ e = .invariant := by
  unfold reconResult at h
  split at h
  · split at h
    · exact .inl (Except.error.inj h).symm
    · exact nomatch h
  · exact .inr (Except.error.inj h).symm

theorem protResult_error {scd ocd shunt uv ov : Word} {s : State} {e : ErrorCause}
    (h : protResult scd ocd shunt uv ov s = .error e) :
    e = .range ∨ e = .invariant ∨ ∃ lo hi which, e = .unobtainable lo hi which := by
  unfold protResult at h
  split at h
  next e' he =>
    obtain rfl := Except.error.inj h
    exact (protCodes_error he).imp_right .inl
  rcases encodeUv_cases s uv with ⟨p, hu⟩ | ⟨lo, hi, hu⟩ <;> simp only [hu] at h
  · rcases encodeOv_cases s ov with ⟨q, ho⟩ | ⟨lo, hi, ho⟩ <;> simp only [ho] at h
    · exact nomatch h
    · exact .inr (.inr ⟨lo, hi, true, (Except.error.inj h).symm⟩)
  · exact .inr (.inr ⟨lo, hi, false, (Except.error.inj h).symm⟩)

/-- The tests of a framer operation before its call do not raise the errors of the call (R100, R101). -/
theorem resultWithoutCall_error_off_bus {q : Except ErrorCause (Option BusCall)} {e : ErrorCause}
    (hq : ∀ e, q = .error e → e ≠ .bus ∧ e ≠ .crc) (h : resultWithoutCall q = some (.error e)) : e ≠ .bus ∧ e ≠ .crc := by
  rcases resultWithoutCall_eq_some h with ⟨e', he, hx⟩ | ⟨-, hx⟩
  · exact Except.error.inj hx ▸ hq e' he
  · exact nomatch hx

/-- An operation that ends without a call raises neither error of the bus (R105). -/
theorem localResult_error_off_bus {s : State} {i : Instr} {e : ErrorCause} (h : localResult s i = some (.error e)) :
    e ≠ .bus ∧ e ≠ .crc := by
  cases i with
  | rdst => exact nomatch h
  | commit w =>
    simp only [localResult, Option.ite_none_left_eq_some, Option.some.injEq, Except.error.injEq] at h
    simp [← h.2]
  | crc8 buf => exact nomatch h
  | wrreg reg buf =>
    exact resultWithoutCall_error_off_bus (fun e he => by rcases wrregCall_error he with ⟨rfl, -⟩ | ⟨rfl, -⟩ <;> simp) h
  | rdreg reg n =>
    exact resultWithoutCall_error_off_bus (fun e he => by rcases rdregCall_error he with ⟨rfl, -⟩ | ⟨rfl, -⟩ <;> simp) h
  | ldcal a b c =>
    simp only [localResult, Option.ite_none_left_eq_some, Option.some.injEq, Except.error.injEq] at h
    simp [← h.2]
  | conv raw => rcases convResult_error (Option.some.inj h) with rfl | rfl <;> simp
  | uvwin => simp [needFlag_ok_error (Option.some.inj h)]
  | ovwin => simp [needFlag_ok_error (Option.some.inj h)]
  | uvenc t =>
    rcases needFlag_error (Option.some.inj h) with rfl | h
    · simp
    · obtain ⟨lo, hi, rfl⟩ := encodeUv_map_error h; simp
  | ovenc t =>
    rcases needFlag_error (Option.some.inj h) with rfl | h
    · simp
    · obtain ⟨lo, hi, rfl⟩ := encodeOv_map_error h; simp
  | uvdec c => rcases operandTest_needFlag_ok_error (Option.some.inj h) with rfl | rfl <;> simp
  | ovdec c => rcases operandTest_needFlag_ok_error (Option.some.inj h) with rfl | rfl <;> simp
  | scdthr amps shunt => exact nomatch h
  | ocdthr amps shunt => exact nomatch h
  | scdbits thr range => simp [bitsResult_error (Option.some.inj h)]
  | ocdbits thr range => simp [bitsResult_error (Option.some.inj h)]
  | recon scd ocd => rcases reconResult_error (Option.some.inj h) with rfl | rfl <;> simp
  | protcfg scd ocd shunt uv ov =>
    rcases needFlag_error (Option.some.inj h) with rfl | h
    · simp
    · rcases protResult_error h with rfl | rfl | ⟨lo, hi, which, rfl⟩ <;> simp

/-! ### The status of an ending -/

theorem errorResponse_status_eq_eBus_iff (e : ErrorCause) : (errorResponse e).status = .eBus ↔ e = .bus := by
  cases e <;> simp [errorResponse]

theorem errorResponse_status_eq_eCrc_iff (e : ErrorCause) : (errorResponse e).status = .eCrc ↔ e = .crc := by
  cases e <;> simp [errorResponse]

/-- The status of an operation that ends without a call is neither error of the bus. -/
theorem responseOf_localResult_status {s : State} {i : Instr} {x : Except ErrorCause Results} (h : localResult s i = some x) :
    (responseOf x).status ≠ .eBus ∧ (responseOf x).status ≠ .eCrc := by
  cases x with
  | ok r => exact ⟨nofun, nofun⟩
  | error e =>
    obtain ⟨hbus, hcrc⟩ := localResult_error_off_bus h
    exact ⟨mt (errorResponse_status_eq_eBus_iff e).mp hbus, mt (errorResponse_status_eq_eCrc_iff e).mp hcrc⟩

/-- A response ends an `RDREG` with `E_CRC` exactly where the block checks CRCs and one of the response's is not the expected one
(R98, R101); otherwise it ends `OK`. -/
theorem deliver_status_eq_eCrc_iff {s : State} {bytes : List Byte} {n : Nat} (hlen : bytes.length = responseSize s.cfg n) :
    (deliver bytes s).resp.status = .eCrc ↔ s.cfg.crcEn = true ∧ ∃ j, 2 * j + 1 < bytes.length ∧
      bytes[2 * j + 1]? ≠ some (readCrc s.cfg bytes j) := by
  cases hcrc : s.cfg.crcEn with
  | false => simp [deliver_plain hcrc, okBytes]
  | true =>
    rw [responseSize_checksum hcrc] at hlen
    obtain ⟨hok, hbad⟩ := deliver_checksum_resp hcrc hlen
    have hindex : ∀ j, 2 * j + 1 < bytes.length ↔ j < n := fun j => by omega
    simp only [hindex, true_and]
    refine ⟨fun hstatus => ?_, fun h => by rw [hbad h]; rfl⟩
    by_contra hall
    push Not at hall
    obtain ⟨v, hv, -⟩ := hok hall
    rw [hv] at hstatus
    exact nomatch hstatus

theorem deliver_status_ne_eBus (bytes : List Byte) (s : State) : (deliver bytes s).resp.status ≠ .eBus := by
  rw [deliver_eq]
  cases payloadOf s.cfg bytes <;> exact nofun

/-- `E_BUS` exactly where the operation's call failed (R105). -/
theorem Ends.status_eq_eBus_iff {i : Instr} {s t : State} (h : Ends s i t) :
    t.resp.status = .eBus ↔ ∃ c, callOf s.cfg i = some c ∧ busAnswer c s = .fail := by
  cases h with
  | result hx => simp [callOf_of_localResult hx, responseOf_localResult_status hx]
  | calibrated => simp [callOf, okResponse]
  | committed => simp [callOf, okResponse]
  | crc buf => simp [callOf, okResponse]
  | writeFailed call answer => exact ⟨fun _ => ⟨_, callOf_wrreg call, answer⟩, fun _ => rfl⟩
  | written call answer => simp [callOf_wrreg call, answer, okResponse]
  | readFailed call answer => exact ⟨fun _ => ⟨_, callOf_rdreg call, answer⟩, fun _ => rfl⟩
  | readAnswered call answer => simp [callOf_rdreg call, answer, deliver_status_ne_eBus]

/-- `E_CRC` exactly where the operation's call was a read whose answer has a CRC byte that is not the expected one (R105). -/
theorem Ends.status_eq_eCrc_iff {i : Instr} {s t : State} (h : Ends s i t) :
    t.resp.status = .eCrc ↔ ∃ c bytes, callOf s.cfg i = some c ∧ busAnswer c s = .ok bytes ∧
      (∃ a q n, c = .writeRead a q n) ∧ s.cfg.crcEn = true ∧ ∃ j, 2 * j + 1 < bytes.length ∧
        bytes[2 * j + 1]? ≠ some (readCrc s.cfg bytes j) := by
  cases h with
  | result hx => simp [callOf_of_localResult hx, responseOf_localResult_status hx]
  | calibrated => simp [callOf, okResponse]
  | committed => simp [callOf, okResponse]
  | crc buf => simp [callOf, okResponse]
  | writeFailed call =>
    obtain ⟨-, -, -, rfl⟩ := wrregCall_some call
    simp [callOf_wrreg call, errorResponse]
  | written call =>
    obtain ⟨-, -, -, rfl⟩ := wrregCall_some call
    simp [callOf_wrreg call, okResponse]
  | readFailed call answer =>
    obtain ⟨-, -, -, rfl⟩ := rdregCall_some call
    simp [callOf_rdreg call, answer, errorResponse]
  | readAnswered call answer =>
    obtain ⟨-, -, -, rfl⟩ := rdregCall_some call
    rw [deliver_status_eq_eCrc_iff (s := afterCall _ s) (busAnswer_read_length answer)]
    simp [callOf_rdreg call, answer]

/-- Settles O38, by the status of each ending. -/
theorem busFailureAndCrcMismatchAreToldApart : Obligations.BusFailureAndCrcMismatchAreToldApart := fun _ _ _ he =>
  ⟨(exec_ends he).status_eq_eBus_iff, (exec_ends he).status_eq_eCrc_iff⟩

end Sys2Proof.Machine
end

section
/-! PROOF. A changed byte of a response never passes the check: the expected CRC byte tells any two values apart (spec/40_framer.md
R93 (d), R97, R98, R103). -/

namespace Sys2Proof.Machine

open Sys2Proof.Claims

/-- The byte-group of a value of a response ends with the value (R97). -/
theorem readCrc_eq (cfg : Config) (buf : List Byte) (i : Nat) :
    readCrc cfg buf i = crc8 cfg ((if i = 0 then [addressByte cfg.devAddr true] else []) ++ [buf.getD (2 * i) 0]) := by
  unfold readCrc
  split
  next hi => subst hi; rfl
  next => rfl

/-- Responses with the same expected CRC byte for a value have the same value (R93 (d)). -/
theorem getD_eq_of_readCrc_eq {cfg : Config} {buf buf' : List Byte} {i : Nat} (h : readCrc cfg buf i = readCrc cfg buf' i) :
    buf.getD (2 * i) 0 = buf'.getD (2 * i) 0 := by
  rw [readCrc_eq, readCrc_eq] at h
  exact crc8_last_injective cfg _ h

/-- The expected CRC byte depends on the value alone. -/
theorem readCrc_congr {cfg : Config} {buf buf' : List Byte} {i : Nat} (h : buf.getD (2 * i) 0 = buf'.getD (2 * i) 0) :
    readCrc cfg buf i = readCrc cfg buf' i := by
  rw [readCrc_eq, readCrc_eq, h]

/-- Of a value and its CRC byte, a change of one of them makes the CRC byte wrong (R103). -/
theorem readCrc_detects_set {cfg : Config} {buf : List Byte} {i j : Nat} {x : Byte}
    (hcrc : buf[2 * i + 1]? = some (readCrc cfg buf i)) (hj : j < buf.length) (hx : buf[j]? ≠ some x)
    (hpair : j = 2 * i ∨ j = 2 * i + 1) :
    (buf.set j x)[2 * i + 1]? ≠ some (readCrc cfg (buf.set j x) i) := by
  rcases hpair with rfl | rfl
  · rw [List.getElem?_set_ne (by omega), hcrc]
    intro h
    have hvalue := getD_eq_of_readCrc_eq (Option.some.inj h)
    simp only [List.getD_eq_getElem?_getD, List.getElem?_set_self hj, List.getElem?_eq_getElem hj, Option.getD_some] at hvalue hx
    exact hx (congrArg some hvalue)
  · have hsame : readCrc cfg (buf.set (2 * i + 1) x) i = readCrc cfg buf i :=
      readCrc_congr (by simp only [List.getD_eq_getElem?_getD, List.getElem?_set_ne (show 2 * i + 1 ≠ 2 * i by omega)])
    rw [List.getElem?_set_self hj, hsame, ← hcrc]
    exact hx.symm

theorem rdregCall_none {cfg : Config} {reg n : Word} (h : rdregCall cfg reg n = .ok none) : n.toNat = 0 := by
  unfold rdregCall at h
  split at h
  · exact nomatch h
  split at h
  next hn => exact hn
  split at h <;> exact nomatch h

/-- An `RDREG` of at least one byte that ends `OK` has passed the tests before its call (R101). -/
theorem rdreg_ok_operands {reg n : Word} {s t : State} (he : exec (.rdreg reg n) s = .next t) (hok : t.resp.status = .ok)
    (hpos : 1 ≤ n.toNat) : reg.toNat ≤ 0xFF ∧ n.toNat ≤ 2 * s.cfg.variant.channels := by
  rcases execRdreg_cases reg n s with ⟨e, -, hraise⟩ | ⟨hnone, -⟩ | ⟨c, hcall, -⟩
  · obtain ⟨-, -, herr⟩ := errorResponse_cleared e
    rw [← Host.Outcome.next.inj (hraise.symm.trans he)] at hok
    exact absurd hok herr
  · exact absurd (rdregCall_none hnone) (by omega)
  · obtain ⟨hreg, -, hmax, -⟩ := rdregCall_some hcall
    exact ⟨hreg, hmax⟩

/-- Settles O39: O35 for both responses. The accepted one has every CRC byte as expected, so in the other the pair with the changed byte
does not agree. -/
theorem oneCorruptedByteIsAlwaysDetected : Obligations.OneCorruptedByteIsAlwaysDetected := by
  intro s t reg n buf rest j x hcrc htransport hlen hpos he hok hj hx
  obtain ⟨hreg, hmax⟩ := rdreg_ok_operands he hok hpos
  obtain ⟨t', he', -, -, -, -, -, -, hbad⟩ :=
    readDeliversAllVerifiedBytesOrNone s reg n buf rest hcrc hreg hpos hmax htransport hlen
  obtain rfl := Host.Outcome.next.inj (he.symm.trans he')
  have hcrcs : ∀ i < n.toNat, buf[2 * i + 1]? = some (readCrc s.cfg buf i) := by
    by_contra hwrong
    push Not at hwrong
    rw [hbad hwrong] at hok
    exact nomatch hok
  obtain ⟨u, hu, -, -, -, -, -, -, hbad'⟩ :=
    readDeliversAllVerifiedBytesOrNone { s with transport := .oracle (.ok (buf.set j x) :: rest) } reg n (buf.set j x) rest
      hcrc hreg hpos hmax rfl (by rw [List.length_set, hlen])
  have hi : j / 2 < n.toNat := by omega
  exact ⟨u, hu, hbad' ⟨j / 2, hi, readCrc_detects_set (hcrcs _ hi) hj hx (by omega)⟩⟩

end Sys2Proof.Machine
end

section
/-! PROOF. The block against the loopback device in its own address and mode: what a write stores, and that a read delivers what the
registers hold (spec/40_framer.md R104, spec/95_test_vectors.md 4.1, log 12). -/

namespace Sys2Proof.Machine

/-- The fixture answers to the block: it has the block's address and mode, and no fault is armed. -/
structure Loopback.Serves (d : Loopback) (cfg : Config) : Prop where
  addr   : d.addr = cfg.devAddr
  mode   : d.crcMode = cfg.crcEn
  noFail : d.failNext = false
  clean  : d.corrupt = none

section

variable {cfg : Config} {d : Loopback} {s : State}

/-- What the registers hold does not matter. -/
theorem loopback_serves_with_mem (h : d.Serves cfg) (m : Memory) : Loopback.Serves { d with mem := m } cfg :=
  ⟨h.addr, h.mode, h.noFail, h.clean⟩

/-! ### What the fixture does with a call of the block -/

/-- The fixture accepts the block's frame and stores its payload (R63, R64). -/
theorem loopback_busWrite_frameW (h : d.Serves cfg) (reg : Byte) (buf : List Byte) :
    d.busWrite cfg cfg.devAddr (frameW cfg reg buf) = (.ok [], { d with mem := d.mem.writeBytes reg 0 buf }) := by
  cases hcrc : cfg.crcEn with
  | false => simp [Loopback.busWrite, h.noFail, h.addr, h.mode, hcrc, frameW_plain hcrc]
  | true =>
    have hlen : buf.length = ((writeGroups cfg.devAddr reg buf).map (crc8 cfg)).length := by simp
    have hframe : frameW cfg reg buf = reg :: interleave buf ((writeGroups cfg.devAddr reg buf).map (crc8 cfg)) := if_pos hcrc
    simp [Loopback.busWrite, h.noFail, h.addr, h.mode, hcrc, hframe, pairsOf_interleave _ _ hlen, List.map_fst_zip hlen.le,
      List.map_snd_zip hlen.ge]

/-- The response of the fixture to a read, with no corruption armed. -/
theorem loopback_busWriteRead (h : d.Serves cfg) (reg : Byte) (n : Nat) :
    (d.busWriteRead cfg cfg.devAddr [reg] n).1 = .ok (d.readOut cfg reg n) := by
  simp [Loopback.busWriteRead, Loopback.corrupted, h.noFail, h.addr, h.clean]

@[simp] theorem memory_readBytes_length (m : Memory) (reg : Byte) (n : Nat) : (m.readBytes reg n).length = n := by
  simp [Memory.readBytes]

/-- The response of the fixture to the block's read has the size the block asks for, and the block takes the registers out of it
(R65, R66, R98). -/
theorem loopback_readOut (h : d.Serves cfg) (reg : Byte) (n : Nat) :
    (d.readOut cfg reg (responseSize cfg n)).length = responseSize cfg n ∧
      payloadOf cfg (d.readOut cfg reg (responseSize cfg n)) = some (d.mem.readBytes reg n) := by
  cases hcrc : cfg.crcEn with
  | false => simp [Loopback.readOut, h.mode, hcrc, responseSize_plain hcrc, payloadOf]
  | true =>
    have hlen : (d.mem.readBytes reg n).length = ((readGroups cfg.devAddr (d.mem.readBytes reg n)).map (crc8 cfg)).length := by simp
    simp [Loopback.readOut, h.mode, h.addr, hcrc, responseSize_checksum hcrc, payloadOf, checkR, checkPairs,
      interleave_length _ _ hlen, pairsOf_interleave _ _ hlen, List.map_fst_zip hlen.le, List.map_snd_zip hlen.ge]

/-- Reading back the registers a payload was stored in gives the payload (R43). -/
theorem memory_readBytes_writeBytes {m : Memory} (hm : m.wf = true) (reg : Byte) {buf : List Byte}
    (hmax : buf.length ≤ regSpace) : (m.writeBytes reg 0 buf).readBytes reg buf.length = buf := by
  refine List.ext_getElem (memory_readBytes_length _ _ _) fun k _ hk => ?_
  have hread := memory_read_writeBytes reg buf m 0 k hm (by omega) hk
  simpa [Memory.readBytes, hk] using hread

/-! ### `WRREG` and `RDREG` against the fixture -/

/-- A `WRREG` against the fixture ends `OK`, and its payload is stored (R100). -/
theorem exec_wrreg_of_loopback (ht : s.transport = .loopback d) (h : d.Serves s.cfg) {reg : Word} {buf : List Byte}
    (hreg : reg.toNat ≤ 0xFF) (hpos : 1 ≤ buf.length) (hmax : buf.length ≤ 8) :
    ∃ t, exec (.wrreg reg buf) s = .next t ∧ t.resp = okResponse {} ∧ t.cfg = s.cfg ∧
      t.transport = .loopback { d with mem := d.mem.writeBytes (lowByte reg) 0 buf } := by
  have hreply : s.transport.reply s.cfg s.free (.write s.cfg.devAddr (frameW s.cfg (lowByte reg) buf)) =
      (.ok [], .loopback { d with mem := d.mem.writeBytes (lowByte reg) 0 buf }) := by
    simp only [ht, Transport.reply, Loopback.answer, loopback_busWrite_frameW h, shapeAnswer]
  refine ⟨respond {} (afterWrite reg buf (.write s.cfg.devAddr (frameW s.cfg (lowByte reg) buf)) s), ?_, rfl, by simp, ?_⟩
  · simp only [exec, execWrreg, wrregCall_ok hreg hpos hmax, busAnswer, hreply]
  · rw [respond_transport, afterWrite_transport, hreply]

/-- An `RDREG` against the fixture delivers its registers (R101). -/
theorem exec_rdreg_of_loopback (ht : s.transport = .loopback d) (h : d.Serves s.cfg) {reg n : Word}
    (hreg : reg.toNat ≤ 0xFF) (hpos : 1 ≤ n.toNat) (hmax : n.toNat ≤ 2 * s.cfg.variant.channels) :
    ∃ t, exec (.rdreg reg n) s = .next t ∧ t.resp = okBytes (d.mem.readBytes (lowByte reg) n.toNat) := by
  obtain ⟨hlen, hpayload⟩ := loopback_readOut h (lowByte reg) n.toNat
  have hanswer : busAnswer (.writeRead s.cfg.devAddr [lowByte reg] (responseSize s.cfg n.toNat)) s =
      .ok (d.readOut s.cfg (lowByte reg) (responseSize s.cfg n.toNat)) := by
    simp only [busAnswer, ht, Transport.reply, Loopback.answer, loopback_busWriteRead h, shapeAnswer, fillTo_of_length _ hlen]
  simp only [exec, execRdreg, rdregCall_ok hreg hpos hmax, hanswer]
  exact ⟨_, rfl, by simp [deliver_eq, hpayload]⟩

end

theorem five_le_channels (v : Variant) : 5 ≤ v.channels := by cases v <;> decide

/-- Settles O40: the write stores its payload, the fixture serves the block as before, and the read delivers the registers. -/
theorem writeThenReadGivesBackThePayload : Obligations.WriteThenReadGivesBackThePayload := by
  intro s d reg buf htransport haddr hmode hfail hcorrupt hwf hreg hpos hmax
  have hserves : d.Serves s.cfg := ⟨haddr, hmode, hfail, hcorrupt⟩
  obtain ⟨t, hwrite, hresp, hcfg, ht⟩ := exec_wrreg_of_loopback htransport hserves hreg hpos hmax
  have hn : (BitVec.ofNat 32 buf.length).toNat = buf.length := Nat.mod_eq_of_lt (by omega)
  have hchannels := five_le_channels t.cfg.variant
  have hserves' : Loopback.Serves { d with mem := d.mem.writeBytes (lowByte reg) 0 buf } t.cfg :=
    hcfg ▸ loopback_serves_with_mem hserves _
  obtain ⟨u, hread, hbytes⟩ := exec_rdreg_of_loopback (n := BitVec.ofNat 32 buf.length) ht hserves' hreg (by omega) (by omega)
  rw [hn, memory_readBytes_writeBytes hwf _ (by simp only [regSpace]; omega)] at hbytes
  exact ⟨t, u, hwrite, hresp, hread, hbytes⟩

end Sys2Proof.Machine
end

section
/-! PROOF. The transfer function of a calibration `cal` can give and its inverse: sign and size, the windows, the achieved values, the
round-trip error and the lower-edge wrap (spec/41_scaler.md R112 to R120). -/

namespace Sys2Proof.Machine

open Sys2Proof.Claims

/-! ### The transfer function -/

variable {g : Nat} {o : Int} {raw raw' : Nat}

/-- The transfer function rounds the microvolts toward zero on either side (R112). -/
theorem xfer_eq_ite (g : Nat) (o : Int) (raw : Nat) :
    xfer g o raw = if 0 ≤ (raw : Int) * g + o * 1000 then ((raw : Int) * g + o * 1000) / 1000
      else -(-((raw : Int) * g + o * 1000) / 1000) := by
  unfold xfer truncDiv floorDiv
  split <;> omega

theorem xfer_neg_iff (g : Nat) (o : Int) (raw : Nat) : xfer g o raw < 0 ↔ (raw : Int) * g + o * 1000 ≤ -1000 := by
  rw [xfer_eq_ite]
  split <;> omega

theorem xfer_mono (g : Nat) (o : Int) (h : raw' ≤ raw) : xfer g o raw' ≤ xfer g o raw := by
  have huv : (raw' : Int) * g ≤ raw * g := by exact_mod_cast Nat.mul_le_mul_right g h
  rw [xfer_eq, xfer_eq]
  exact Int.tdiv_le_tdiv (by decide) (by omega)

/-- From 348 up the least gain outweighs the lowest offset but for less than a millivolt (R113 (c)). -/
theorem xfer_nonneg (hcal : Calibrated g o) (h : 0 ≤ o ∨ 348 ≤ raw) : 0 ≤ xfer g o raw := by
  obtain ⟨hg, -, ho, -⟩ := hcal
  rw [← not_lt, xfer_neg_iff]
  rcases h with h | h
  · have : 0 ≤ (raw : Int) * g := by positivity
    omega
  · have : 348 * 365 ≤ (raw : Int) * g := by exact_mod_cast Nat.mul_le_mul h (by omega)
    omega

/-- The microvolts at the 14-bit raw codes (R113 (e)). -/
theorem microvolts_bounds (hcal : Calibrated g o) (hraw : raw ≤ 0x3FFF) :
    -128000 ≤ (raw : Int) * g + o * 1000 ∧ (raw : Int) * g + o * 1000 ≤ 6614668 := by
  obtain ⟨-, hg, ho, ho'⟩ := hcal
  have hlow : 0 ≤ (raw : Int) * g := by positivity
  have hhigh : (raw : Int) * g ≤ 0x3FFF * 396 := by exact_mod_cast Nat.mul_le_mul hraw (by omega)
  omega

theorem xfer_bounds (hcal : Calibrated g o) (hraw : raw ≤ 0x3FFF) : -128 ≤ xfer g o raw ∧ xfer g o raw ≤ 6614 := by
  have huv := microvolts_bounds hcal hraw
  rw [xfer_eq_ite]
  split <;> omega

/-- Settles O47, by the bounds of the microvolts. -/
theorem transferFunctionSignAndSize : Obligations.TransferFunctionSignAndSize := fun g o _ hcal hraw =>
  ⟨xfer_bounds hcal hraw, xfer_neg_iff _ _ _, xfer_nonneg hcal, fun _ => xfer_mono g o,
    by have := microvolts_bounds hcal hraw; omega⟩

/-! ### Trip codes -/

/-- At a trip code the microvolts are positive, so the offset is a whole number of millivolts above the scaled code (R113). -/
theorem xfer_of_tripCode (hcal : Calibrated g o) (h : 4096 ≤ raw) : xfer g o raw = (raw : Int) * g / 1000 + o := by
  obtain ⟨hg, -, ho, -⟩ := hcal
  have huv : 4096 * 365 ≤ (raw : Int) * g := by exact_mod_cast Nat.mul_le_mul h (by omega)
  rw [xfer_eq_ite, if_pos (by omega), Int.add_mul_ediv_right _ _ (by decide)]

/-- Sixteen raw codes are at least 5840 microvolts (R118). -/
theorem xfer_lt_of_step (hcal : Calibrated g o) (hlow : 4096 ≤ raw') (h : raw' + 16 ≤ raw) : xfer g o raw' < xfer g o raw := by
  have huv : ((raw' : Int) + 16) * g ≤ raw * g := by exact_mod_cast Nat.mul_le_mul_right g h
  rw [add_mul] at huv
  rw [xfer_of_tripCode hcal hlow, xfer_of_tripCode hcal (by omega)]
  omega

/-- 24 raw codes are 9 or 10 millivolts, once the fractions are dropped, at each of the 32 gains (R115). -/
theorem gap_cases (hcal : Calibrated g o) :
    8200 * (g : Int) / 1000 = 8176 * g / 1000 + 9 ∨ 8200 * (g : Int) / 1000 = 8176 * g / 1000 + 10 := by
  obtain ⟨hg, hg', -⟩ := hcal
  have hgains : ∀ d < 32, 8200 * (365 + d) / 1000 = 8176 * (365 + d) / 1000 + 9 ∨
      8200 * (365 + d) / 1000 = 8176 * (365 + d) / 1000 + 10 := by decide
  obtain ⟨d, rfl⟩ := Nat.exists_eq_add_of_le (show 365 ≤ g by omega)
  exact_mod_cast hgains d (by omega)

/-- Settles O48, by the scaled codes at the ends of the windows; the gap depends on the gain alone. -/
theorem windowsArePositiveAndApart : Obligations.WindowsArePositiveAndApart := by
  refine ⟨by decide, by decide, fun g o hcal => ?_⟩
  have hgap := gap_cases hcal
  simp only [uvLo, uvHi, ovLo, ovHi, xfer_of_tripCode hcal, Nat.reduceLeDiff, Nat.cast_ofNat]
  omega

theorem uvDecode_eq (g : Nat) (o : Int) {c : Nat} (h : c ≤ 0xFF) : uvDecode g o c = xfer g o (4096 + 16 * c) := by
  rw [uvDecode, uvRaw_eq h]

theorem ovDecode_eq (g : Nat) (o : Int) {c : Nat} (h : c ≤ 0xFF) : ovDecode g o c = xfer g o (8200 + 16 * c) := by
  rw [ovDecode, ovRaw_eq h]

/-- No trip code has fewer millivolts than the lowest, which is positive (R115). -/
theorem xfer_pos_of_tripCode (hcal : Calibrated g o) (h : uvLo ≤ raw) : 0 < xfer g o raw := by
  obtain ⟨-, -, hwin⟩ := windowsArePositiveAndApart
  obtain ⟨hmin, -⟩ := hwin g o hcal
  have hmono := xfer_mono g o h
  omega

/-- Settles O49: each code is one step of sixteen raw codes above the one before. -/
theorem achievedValuesIncreaseWithTheCode : Obligations.AchievedValuesIncreaseWithTheCode := by
  refine fun g o hcal => ⟨rfl, rfl, rfl, rfl, fun c hc => ?_⟩
  rw [uvDecode_eq g o hc, ovDecode_eq g o hc]
  refine ⟨xfer_pos_of_tripCode hcal (by unfold uvLo; omega), xfer_pos_of_tripCode hcal (by unfold uvLo; omega), fun c' hlt => ?_⟩
  rw [uvDecode_eq g o (by omega), ovDecode_eq g o (by omega)]
  exact ⟨xfer_lt_of_step hcal (by omega) (by omega), xfer_lt_of_step hcal (by omega) (by omega)⟩

/-! ### The raw code of a target -/

variable {t t' lo : Nat}

/-- The raw code of a target is the quotient by the gain, rounded down (R116). -/
theorem le_rawOfTarget_iff (hcal : Calibrated g o) (ht : o ≤ t) (n : Int) :
    n ≤ rawOfTarget g o t ↔ n * g ≤ ((t : Int) - o) * 1000 := by
  rw [rawOfTarget_eq, Int.tdiv_eq_ediv_of_nonneg (by omega), Int.le_ediv_iff_mul_le (by omega)]

theorem rawOfTarget_mono (g : Nat) (o : Int) (h : t ≤ t') : rawOfTarget g o t ≤ rawOfTarget g o t' := by
  rw [rawOfTarget_eq, rawOfTarget_eq]
  rcases Nat.eq_zero_or_pos g with rfl | hg
  · simp
  · exact Int.tdiv_le_tdiv (by exact_mod_cast hg) (by omega)

/-- A target at or above the millivolts of a trip code is not below the offset. -/
theorem offset_le_target (hcal : Calibrated g o) (hlo : 4096 ≤ lo) (h : xfer g o lo ≤ t) : o ≤ t := by
  rw [xfer_of_tripCode hcal hlo] at h
  have : 0 ≤ (lo : Int) * g / 1000 := by positivity
  omega

/-- The raw code of a target at or above the millivolts of a trip code: the fraction of a millivolt that the transfer function dropped
is less than three raw codes (R116, R117). -/
theorem le_rawOfTarget_of_xfer_le (hcal : Calibrated g o) (hraw : 4096 ≤ raw) (h : xfer g o raw ≤ t) :
    (raw : Int) - 3 ≤ rawOfTarget g o t := by
  rw [le_rawOfTarget_iff hcal (offset_le_target hcal hraw h), sub_mul]
  rw [xfer_of_tripCode hcal hraw] at h
  omega

theorem rawOfTarget_le_of_le_xfer (hcal : Calibrated g o) (hraw : 4096 ≤ raw) (ht : o ≤ t) (h : (t : Int) ≤ xfer g o raw) :
    rawOfTarget g o t ≤ raw := by
  rw [← Int.lt_add_one_iff, ← not_le, le_rawOfTarget_iff hcal ht, add_mul]
  rw [xfer_of_tripCode hcal hraw] at h
  omega

/-- The targets of the over-voltage window have bits 13:12 of their raw code at 0b10 (R117). -/
theorem rawOfTarget_of_ovWindow (hcal : Calibrated g o) (h : xfer g o ovLo ≤ t) (h' : (t : Int) ≤ xfer g o ovHi) :
    0x2000 ≤ rawOfTarget g o t ∧ rawOfTarget g o t < 0x3000 := by
  have hlo := le_rawOfTarget_of_xfer_le hcal (by decide) h
  have hhi := rawOfTarget_le_of_le_xfer hcal (by decide) (offset_le_target hcal (by decide) h) h'
  unfold ovLo at hlo
  unfold ovHi at hhi
  omega

/-- A target with a positive raw code is not below the offset. -/
theorem offset_le_of_rawOfTarget_pos (h : 0 < rawOfTarget g o t) : o ≤ t := by
  by_contra hlt
  have hneg : 0 ≤ -(((t : Int) - o) * 1000) := by omega
  have := Int.tdiv_nonneg hneg (Int.natCast_nonneg g)
  rw [Int.neg_tdiv, ← rawOfTarget_eq] at this
  omega

/-- The targets of the under-voltage window whose raw code is no less than that of code 0 have bits 13:12 at 0b01 (R119). -/
theorem rawOfTarget_of_uvWindow (hcal : Calibrated g o) (h : 0x1000 ≤ rawOfTarget g o t) (h' : (t : Int) ≤ xfer g o uvHi) :
    rawOfTarget g o t < 0x2000 := by
  have hhi := rawOfTarget_le_of_le_xfer hcal (by decide) (offset_le_of_rawOfTarget_pos (g := g) (by omega)) h'
  unfold uvHi at hhi
  omega

/-- How far the millivolts of a trip code lie from a target, in terms of how far it lies from the raw code of the target (R119). -/
theorem xfer_sub_target (hcal : Calibrated g o) (ht : o ≤ t) (hraw : 4096 ≤ raw) :
    (raw - rawOfTarget g o t - 1) * g - 1000 < (xfer g o raw - t) * 1000 ∧
    (xfer g o raw - t) * 1000 ≤ (raw - rawOfTarget g o t) * g := by
  have hle := (le_rawOfTarget_iff hcal ht (rawOfTarget g o t)).mp le_rfl
  have hlt := mt (le_rawOfTarget_iff hcal ht (rawOfTarget g o t + 1)).mpr (by omega)
  rw [xfer_of_tripCode hcal hraw]
  simp only [sub_mul, add_mul] at hle hlt ⊢
  omega

/-- Bits 11:4 of a raw code number the steps of sixteen in its block of 4096 (R71, R72). -/
theorem codeOfRaw_step {q : Int} (k : Nat) (h : 4096 * k ≤ q) (h' : q < 4096 * (k + 1)) :
    4096 * k + 16 * codeOfRaw q ≤ q ∧ q < 4096 * k + 16 * codeOfRaw q + 16 := by
  rw [codeOfRaw_eq]
  omega

theorem codeOfRaw_le (q : Int) : codeOfRaw q ≤ 0xFF := Nat.le_of_lt_succ (codeOfRaw_lt q)

theorem codeOfRaw_mono {q q' : Int} (k : Nat) (h : 4096 * k ≤ q) (hle : q ≤ q') (h' : q' < 4096 * (k + 1)) :
    codeOfRaw q ≤ codeOfRaw q' := by
  have hstep := codeOfRaw_step k h (by omega)
  have hstep' := codeOfRaw_step k (by omega) h'
  omega

/-- The round-trip error in a block of trip codes whose low four bits are `low`: in each step of sixteen raw codes the trip code lies from
`low` above the raw code of the target to `15 - low` below it (R119). -/
theorem roundTrip_error (hcal : Calibrated g o) (ht : o ≤ t) {k low : Nat} (hk : 1 ≤ k) (hlow : low ≤ 15)
    (h : 4096 * k ≤ rawOfTarget g o t) (h' : rawOfTarget g o t < 4096 * (k + 1)) :
    -(16 - low) * 396 - 1000 < (xfer g o (4096 * k + low + 16 * codeOfRaw (rawOfTarget g o t)) - t) * 1000 ∧
    (xfer g o (4096 * k + low + 16 * codeOfRaw (rawOfTarget g o t)) - t) * 1000 ≤ low * 396 := by
  obtain ⟨hstep, hstep'⟩ := codeOfRaw_step k h h'
  obtain ⟨hlt, hle⟩ := xfer_sub_target (raw := 4096 * k + low + 16 * codeOfRaw (rawOfTarget g o t)) hcal ht (by omega)
  obtain ⟨-, hg, -⟩ := hcal
  push_cast at hlt hle
  constructor <;> nlinarith

/-- Settles O50: the low four bits of a trip code are 8 in the over-voltage block and 0 in the under-voltage one. -/
theorem roundTripErrorIsBounded : Obligations.RoundTripErrorIsBounded := by
  intro g o t hcal
  refine ⟨fun h h' => ?_, fun h h' hq => ?_, fun t' ht h h' => ?_, fun t' ht hq h' => ?_⟩
  · obtain ⟨hq, hq'⟩ := rawOfTarget_of_ovWindow hcal h h'
    have herr := roundTrip_error (k := 2) (low := 8) hcal (offset_le_target hcal (by decide) h) (by decide) (by decide) hq hq'
    simp only [Nat.reduceMul, Nat.reduceAdd] at herr
    rw [ovEncode, ovDecode_eq g o (codeOfRaw_le _)]
    omega
  · have hq' := rawOfTarget_of_uvWindow hcal hq h'
    have herr := roundTrip_error (k := 1) (low := 0) hcal (offset_le_target hcal (by decide) h) (by decide) (by decide) hq hq'
    simp only [Nat.reduceMul, Nat.reduceAdd] at herr
    rw [uvEncode, uvDecode_eq g o (codeOfRaw_le _)]
    omega
  · have hq := rawOfTarget_of_ovWindow hcal h (by omega)
    have hq' := rawOfTarget_of_ovWindow hcal (by omega) h'
    exact codeOfRaw_mono 2 hq.1 (rawOfTarget_mono g o ht) hq'.2
  · have hle := rawOfTarget_mono g o ht
    exact codeOfRaw_mono 1 hq hle (rawOfTarget_of_uvWindow hcal (by omega) h')

/-! ### The lower-edge wrap -/

/-- A gain is a multiple of 125, so that 4096 gains are whole millivolts, only at 375 (R120). -/
theorem fraction_uvLo_eq_zero_iff (hcal : Calibrated g o) : 4096 * (g : Int) % 1000 = 0 ↔ g = 375 := by
  obtain ⟨hg, hg', -⟩ := hcal
  omega

/-- Settles O51: the lowest target drops a fraction of a millivolt of its 4096 gains, unless there is none, and its raw code falls short
of 0x1000; one millivolt more and it does not. -/
theorem lowestUvTargetWrapsToTheHighestCode : Obligations.LowestUvTargetWrapsToTheHighestCode := by
  intro g o t hcal h h'
  have ho := offset_le_target hcal (by decide) h
  have hlow := le_rawOfTarget_of_xfer_le hcal (by decide) h
  have hhigh := rawOfTarget_le_of_le_xfer hcal (by decide) ho h'
  have hfrac := fraction_uvLo_eq_zero_iff hcal
  have hblock := le_rawOfTarget_iff hcal ho 0x1000
  have hmin : xfer g o uvLo = 4096 * (g : Int) / 1000 + o := xfer_of_tripCode hcal le_rfl
  simp only [uvLo, uvHi] at hlow hhigh
  refine ⟨fun ht => ?_, fun ht hg => ?_, fun ht => ?_⟩
  · push_cast
    omega
  · have hwrap : uvEncode g o t = 0xFF := by rw [uvEncode, codeOfRaw_eq]; omega
    exact ⟨by omega, by omega, hwrap, by rw [hwrap]; rfl⟩
  · omega

end Sys2Proof.Machine
end

section
/-! PROOF. The operations that deliver the transfer function, the frame of those that write the result state only, and the bring-up order
(spec/41_scaler.md R122 to R129, spec/70_reset_and_hazards.md R212, R213). -/

namespace Sys2Proof.Machine

open Sys2Proof.Claims

/-- Settles O25, by the operations that do more. -/
theorem resultOperationsChangeTheResultStateOnly : Obligations.ResultOperationsChangeTheResultStateOnly := by
  intro i s honly
  cases hx : localResult s i with
  | some x => exact ⟨responseOf x, exec_of_localResult hx⟩
  | none =>
    rcases localResult_eq_none hx with ⟨_, rfl, _⟩ | ⟨_, _, _, rfl, _⟩ | ⟨_, rfl⟩ | ⟨_, _, _, rfl, _⟩ | ⟨_, _, _, rfl, _⟩ <;>
      exact honly.elim

/-- What an operation that needs a flag, and finds no error besides, delivers (R122). -/
theorem exec_of_needFlag_ok {i : Instr} {s : State} {flag : Bool} {r : Results} (he : localResult s i = some (needFlag flag (.ok r))) :
    (flag = true → exec i s = .next { s with resp := answerOk r }) ∧
    (flag = false → exec i s = .next { s with resp := answerError .eUninit }) := by
  rw [exec_of_localResult he]
  exact ⟨fun h => by rw [needFlag_of_set h]; rfl, fun h => by rw [needFlag_of_clear h]; rfl⟩

/-- Settles O43, as operations that need `CALV`. -/
theorem windowOperationsDeliverTheExtremes : Obligations.WindowOperationsDeliverTheExtremes := by
  intro s
  obtain ⟨huv, huvClear⟩ := exec_of_needFlag_ok (i := .uvwin) (s := s) rfl
  obtain ⟨hov, hovClear⟩ := exec_of_needFlag_ok (i := .ovwin) (s := s) rfl
  simp only [millivolts_eq] at huv hov
  exact ⟨huv, hov, huvClear, hovClear⟩

/-- Settles O46: a code above 0xFF is a reserved operand, and the other codes have their trip code by a sum. -/
theorem decodeOperationsDeliverTripMillivolts : Obligations.DecodeOperationsDeliverTripMillivolts := by
  refine fun c s => ⟨fun h => ⟨reservedOperandIsRefusedFirst (.uvdec c) s h, reservedOperandIsRefusedFirst (.ovdec c) s h⟩, ?_⟩
  have hbyte (h : c.toNat ≤ 0xFF) : ¬ ¬ isByte c = true := not_not.mpr ((isByte_iff c).mpr h)
  have huv (h : c.toNat ≤ 0xFF) := exec_of_needFlag_ok (i := .uvdec c) (s := s) (congrArg some (if_neg (hbyte h)))
  have hov (h : c.toNat ≤ 0xFF) := exec_of_needFlag_ok (i := .ovdec c) (s := s) (congrArg some (if_neg (hbyte h)))
  refine ⟨fun h hc => ⟨(huv h).2 hc, (hov h).2 hc⟩, fun h hc => ?_⟩
  rw [(huv h).1 hc, (hov h).1 hc, uvRaw_eq h, ovRaw_eq h, millivolts_eq, millivolts_eq]
  exact ⟨rfl, rfl⟩

/-- What `CONV` computes of a raw code in an Initialized block (R123). -/
theorem convResult_of_init {raw : Word} {s : State} (hraw : raw.toNat ≤ 0x3FFF) (h : s.init = true) :
    convResult raw s = if mv (gain s) (offset s) raw.toNat < 0 then .error .invariant
      else .ok { r0 := signedWord (mv (gain s) (offset s) raw.toNat) } := by
  rw [convResult, if_neg (not_not.mpr ((isRaw_iff raw).mpr hraw)), needFlag_of_set h, millivolts_eq]

/-- Settles O42, test by test. -/
theorem convDeliversTruncatedMillivolts : Obligations.ConvDeliversTruncatedMillivolts := by
  intro raw s
  have he : exec (.conv raw) s = .next (finish (convResult raw s) s) := rfl
  refine ⟨reservedOperandIsRefusedFirst (.conv raw) s, fun hraw h => ?_, fun hraw h hneg => ?_, fun hraw h hpos => ?_⟩
  · rw [he, convResult, if_neg (not_not.mpr ((isRaw_iff raw).mpr hraw)), needFlag_of_clear h]
    rfl
  · rw [he, convResult_of_init hraw h, if_pos hneg]
    rfl
  · rw [he, convResult_of_init hraw h, if_neg (not_lt.mpr hpos)]
    obtain ⟨n, hn⟩ := Int.eq_ofNat_of_zero_le hpos
    rw [hn]
    rfl

/-- A gain of 365..396 and any offset byte are a calibration `cal` can give (R24, R25). -/
theorem calibrated_of_calibratedGain {s : State} (h : calibratedGain s.gain) : Calibrated (gainOf s : Int) (offsetOf s) := by
  have hlow := BitVec.le_toInt s.offset
  have hhigh := BitVec.toInt_lt (x := s.offset)
  obtain ⟨hg, hg'⟩ := h
  unfold gainOf offsetOf
  omega

/-- From 348 up an Initialized block converts every raw code to a number of millivolts that fits `R0` (R113 (c), R123). -/
theorem exec_conv_of_calibrated {s : State} {raw : Word} (hinit : s.init = true) (hgain : calibratedGain s.gain)
    (hlow : 348 ≤ raw.toNat) (hraw : raw.toNat ≤ 0x3FFF) : ∃ r, exec (.conv raw) s = .next { s with resp := answerOk r } ∧
      (r.r0.toNat : Int) = mv (gain s) (offset s) raw.toNat := by
  have hcal := calibrated_of_calibratedGain hgain
  have hpos : 0 ≤ millivolts s raw.toNat := xfer_nonneg hcal (.inr hlow)
  obtain ⟨-, hbound⟩ : _ ∧ millivolts s raw.toNat ≤ 6614 := xfer_bounds hcal hraw
  rw [millivolts_eq] at hpos hbound
  obtain ⟨-, -, -, hconv⟩ := convDeliversTruncatedMillivolts raw s
  refine ⟨_, hconv hraw hinit hpos, ?_⟩
  rw [BitVec.toNat_ofNat, Nat.mod_eq_of_lt (by omega), Int.toNat_of_nonneg hpos]

/-- Settles O29: the gain `LDCAL` loads is in 365..396, `COMMIT` keeps it, and `CONV` has no negative result to refuse. -/
theorem bringUpReachesConversion : Obligations.BringUpReachesConversion := by
  intro s a b c w raw ha hb hc hlow hraw
  have hbytes : (isByte a && isByte b && isByte c) = true := by simp [ha, hb, hc]
  have hldcal : exec (.ldcal a b c) s = _ := if_pos hbytes
  have hcommit (t : State) (h : t.calv = true) : exec (.commit w) t = .next (respond {} (commitShunt w t)) := if_pos h
  obtain ⟨r, hconv, hr⟩ := exec_conv_of_calibrated (s := respond {} (commitShunt w (respond _ (loadCal (calGain a c) (calOffset b) s))))
    rfl (calibratedGain_calGain ha hc) hlow hraw
  exact ⟨_, _, _, hldcal, hcommit _ rfl, hconv, rfl, rfl, rfl, hr⟩

end Sys2Proof.Machine
end

section
/-! PROOF. The search of a threshold table: the entry a drop rounds up to is the only one R146 selects, it rises with the drop, and it
is not below the drop unless every entry is. And the code of an entry in a range (spec/42_threshold.md R145 to R147, R150 to R153,
R156). -/

namespace Sys2Proof.Machine

open Sys2Proof.Claims

theorem dropMv_mono {amps amps' shunt shunt' : Word} (ha : amps'.toNat ≤ amps.toNat) (hs : shunt'.toNat ≤ shunt.toNat) :
    dropMv amps' shunt' ≤ dropMv amps shunt :=
  Nat.div_le_div_right (Nat.mul_le_mul ha hs)

variable {t : Table} {m m' k : Nat} {e e' : Entry} {amps shunt : Word}

/-- A larger drop selects no lower entry, in any table (R156 (c)). -/
theorem selects_mono (hm : m' ≤ m) (h' : Selects t m' e') (h : Selects t m e) : e'.mv.toNat ≤ e.mv.toNat := by
  obtain ⟨hmem', hlowest', hhighest'⟩ := h'
  obtain ⟨hmem, -, hhighest⟩ := h
  rcases Nat.lt_or_ge e.mv.toNat m with hbelow | hreached
  · exact hhighest hbelow e' hmem'
  rcases Nat.lt_or_ge e'.mv.toNat m' with hbelow' | hreached'
  · have := hhighest' hbelow' e hmem
    omega
  · exact hlowest' hreached' e hmem (hm.trans hreached)

/-- The selected entry reaches the drop exactly where the last entry does (R156 (d)). -/
theorem selects_reaches_iff (hwf : t.wf k) (h : Selects t m e) : m ≤ t.last.mv.toNat ↔ m ≤ e.mv.toNat := by
  obtain ⟨hmem, -, hhighest⟩ := h
  refine ⟨fun hlast => ?_, fun hreached => hreached.trans (table_le_last t hwf.1 e hmem)⟩
  by_contra! hbelow
  have := hhighest hbelow t.last (table_last_mem t)
  omega

theorem selects_fromCurrent (hwf : t.wf k) (amps shunt : Word) : Selects t (drop amps shunt) (fromCurrent t amps shunt) := by
  obtain ⟨hmem, ⟨hreached, hlowest⟩ | ⟨hlast, hbelow⟩⟩ := fromCurrent_cases t amps shunt hwf.1
  · exact ⟨hmem, fun _ => hlowest, fun hlt => absurd hlt (Nat.not_lt.mpr hreached)⟩
  · exact ⟨hmem, fun hle => absurd (hbelow _ hmem) (Nat.not_lt.mpr hle), fun _ x hx => hlast ▸ table_le_last t hwf.1 x hx⟩

/-- No other entry is selected, since a millivolt value names one entry (R146). -/
theorem fromCurrent_eq_of_selects (hwf : t.wf k) (h : Selects t (drop amps shunt) e) : fromCurrent t amps shunt = e :=
  have hs := selects_fromCurrent hwf amps shunt
  table_mv_unique t hwf.1 hs.1 h.1 (Nat.le_antisymm (selects_mono le_rfl hs h) (selects_mono le_rfl h hs))

/-- Clamping at the minimum (R156 (a)). -/
theorem selects_first (hwf : t.wf k) (hm : m < t.first.mv.toNat) : Selects t m t.first :=
  ⟨table_first_mem t, fun _ x hx _ => table_first_le t hwf.1 x hx, fun hlt => absurd hlt (Nat.lt_asymm hm)⟩

/-- Clamping at the maximum (R156 (a)). -/
theorem selects_last (hwf : t.wf k) (hm : t.last.mv.toNat < m) : Selects t m t.last :=
  ⟨table_last_mem t, fun hle => absurd hm (Nat.not_lt.mpr hle), fun _ x hx => table_le_last t hwf.1 x hx⟩

/-- An exact drop selects its entry (R156 (b)). -/
theorem selects_exact (he : e ∈ t.entries) (hm : m = e.mv.toNat) : Selects t m e :=
  ⟨he, fun _ _ _ hx => hm ▸ hx, fun hlt => absurd hm.symm (Nat.ne_of_lt hlt)⟩

/-! ### The shared range -/

/-- A mismatch is one `Lower` and one `Upper` (R148). -/
theorem reconcile_eq_none_iff (a b : Range) :
    reconcile a b = none ↔ (a = .lower ∧ b = .upper) ∨ (a = .upper ∧ b = .lower) := by
  cases a <;> cases b <;> simp [reconcile]

/-- Settles O57: the search by the entry R146 selects, the reconciler by its mismatches. -/
theorem codecProperties : Obligations.CodecProperties := by
  refine ⟨fun k t amps shunt hwf => ⟨fun h => ?_, fun h => ?_, fun e he h => ?_, fun amps' shunt' ha hs => ?_, ?_⟩,
    fun a b => ⟨reconcile_eq_none_iff a b, fun h => ?_, fun h => ?_⟩⟩
  · exact fromCurrent_eq_of_selects hwf (selects_first hwf h)
  · exact fromCurrent_eq_of_selects hwf (selects_last hwf h)
  · exact fromCurrent_eq_of_selects hwf (selects_exact he h)
  · exact selects_mono (dropMv_mono ha hs) (selects_fromCurrent hwf amps' shunt') (selects_fromCurrent hwf amps shunt)
  · exact selects_reaches_iff hwf (selects_fromCurrent hwf amps shunt)
  · rw [Option.isSome_iff_ne_none, ne_eq, reconcile_eq_none_iff]
    rcases h with rfl | rfl <;> simp
  · obtain ⟨hresolved, -, -⟩ := reconcile_some h
    exact hresolved rfl

/-! ### `SCDTHR` and `OCDTHR` -/

/-- The class of an entry, as a result register carries it (R75, R144). -/
theorem encodeRange_rangeOf (e : Entry) : encodeRange (rangeOf e) = classWord e := by
  rw [rangeOf_eq, classWord, apply_ite encodeRange, apply_ite encodeRange]
  rfl

/-- What `SCDTHR` and `OCDTHR` have in common (R150, R151). -/
theorem exec_of_fromCurrent {i : Instr} {s : State} (hwf : t.wf k)
    (he : localResult s i = some (.ok (thresholdResults (fromCurrent t amps shunt)))) :
    ∃ e, Selects t (drop amps shunt) e ∧ exec i s = .next { s with resp := answerOk { r0 := e.mv, r1 := classWord e } } := by
  refine ⟨_, selects_fromCurrent hwf amps shunt, ?_⟩
  rw [exec_of_localResult he, thresholdResults, encodeRange_rangeOf]
  rfl

/-- Settles O52, by the entry the search finds. -/
theorem thresholdOperationsRoundUpToAnEntry : Obligations.ThresholdOperationsRoundUpToAnEntry := fun _ _ _ hwf =>
  ⟨exec_of_fromCurrent hwf.1 rfl, exec_of_fromCurrent hwf.2 rfl⟩

/-! ### `SCDBITS` and `OCDBITS` -/

/-- The codes of R147, for the range a word names. -/
theorem codeIn_eq_bind (e : Entry) (range : Word) : codeIn e range = (decodeResolvedRange range).bind (bitsOf e) := by
  rw [codeIn, decodeResolvedRange_eq]
  split
  · rfl
  split <;> rfl

/-- The code of an entry of the table, or `E_INVARIANT` where it has none in the range (R152). -/
theorem bitsResult_of_mem (hwf : t.wf k) (he : e ∈ t.entries) (range : Word) :
    bitsResult t e.mv range = (codeIn e range).elim (.error .invariant) fun c => .ok { r0 := unsignedWord c } := by
  rw [codeIn_eq_bind, bitsResult]
  cases decodeResolvedRange range with
  | none => rfl
  | some r =>
    simp only [table_find_mv t hwf.1 he, Option.bind_some]
    cases bitsOf e r <;> rfl

/-- Codes have the table's width, in either range (W3). -/
theorem codeIn_lt (hwf : t.wf k) (he : e ∈ t.entries) {range : Word} {c : Nat} (hc : codeIn e range = some c) : c < 2 ^ k := by
  unfold codeIn at hc
  split at hc
  · exact table_lo_lt hwf he hc
  split at hc
  · exact table_up_lt hwf he hc
  · exact nomatch hc

/-- What `SCDBITS` and `OCDBITS` have in common (R152, R153). -/
theorem exec_of_bitsResult {i : Instr} {s : State} {range : Word} (hwf : t.wf k) (he : e ∈ t.entries)
    (hi : localResult s i = some (bitsResult t e.mv range)) :
    (∀ c, codeIn e range = some c → c < 2 ^ k ∧ exec i s = .next { s with resp := answerOk { r0 := BitVec.ofNat 32 c } }) ∧
    (codeIn e range = none → exec i s = .next { s with resp := answerError .eInvariant }) := by
  rw [exec_of_localResult hi, bitsResult_of_mem hwf he]
  exact ⟨fun c hc => ⟨codeIn_lt hwf he hc, by rw [hc]; rfl⟩, fun hc => by rw [hc]; rfl⟩

/-- Settles O53: a value that is no entry's is a reserved operand, and an entry's value finds the entry. -/
theorem bitsOperationsDeliverTheCodeOfTheRange : Obligations.BitsOperationsDeliverTheCodeOfTheRange :=
  ⟨fun thr range s => ⟨fun h => reservedOperandIsRefusedFirst (.scdbits thr range) s (.inr h),
      fun h => reservedOperandIsRefusedFirst (.ocdbits thr range) s (.inr h)⟩,
    fun _ _ _ hwf => ⟨fun he => exec_of_bitsResult hwf.1 he rfl, fun he => exec_of_bitsResult hwf.2 he rfl⟩⟩

end Sys2Proof.Machine
end

section
/-! PROOF. The shared range of the two thresholds: what `RECON` and step 2 of `PROTCFG` make of it, and the steps of `PROTCFG` after it
(spec/42_threshold.md R147 to R149, R154, R155). -/

namespace Sys2Proof.Machine

open Sys2Proof.Claims

/-! ### The reconciler in terms of words -/

/-- Every word up to 2 names a range (R18). -/
theorem exists_encodeRange_eq {w : Word} (h : w.toNat ≤ 2) : ∃ r, encodeRange r = w := by
  obtain hw | hw | hw : w.toNat = 0 ∨ w.toNat = 1 ∨ w.toNat = 2 := by omega
  · exact ⟨.lower, (BitVec.eq_of_toNat_eq hw).symm⟩
  · exact ⟨.upper, (BitVec.eq_of_toNat_eq hw).symm⟩
  · exact ⟨.unknown, (BitVec.eq_of_toNat_eq hw).symm⟩

theorem mismatch_encodeRange_iff (a b : Range) : Mismatch (encodeRange a) (encodeRange b) ↔ reconcile a b = none := by
  cases a <;> cases b <;> decide

/-- A resolved range, as a word (R148). -/
theorem encodeRange_of_reconcile {a b r : Range} (h : reconcile a b = some r) :
    encodeRange r = resolved (encodeRange a) (encodeRange b) := by
  cases a <;> cases b <;> simp only [reconcile, reduceCtorEq, Option.some.injEq] at h <;> subst h <;> rfl

/-- Classes that do not mismatch resolve (R148). -/
theorem reconcile_of_not_mismatch {a b : Range} (h : ¬ Mismatch (encodeRange a) (encodeRange b)) :
    ∃ r, reconcile a b = some r ∧ encodeRange r = resolved (encodeRange a) (encodeRange b) := by
  obtain ⟨r, hr⟩ := Option.ne_none_iff_exists'.mp (mt (mismatch_encodeRange_iff a b).mpr h)
  exact ⟨r, hr, encodeRange_of_reconcile hr⟩

/-- A range other than `Unknown` is 0 or 1 (R75). -/
theorem encodeRange_le_one {r : Range} (h : r ≠ .unknown) : (encodeRange r).toNat ≤ 1 := by
  cases r with
  | lower => decide
  | upper => decide
  | unknown => exact absurd rfl h

/-! ### `RECON` -/

/-- `RECON` of two classes, by the reconciler (R154). -/
theorem reconResult_encodeRange (a b : Range) :
    reconResult (encodeRange a) (encodeRange b) =
      (reconcile a b).elim (.error .range) fun r => .ok { r0 := encodeRange r } := by
  simp only [reconResult, decodeRange_encodeRange]
  cases reconcile a b <;> rfl

/-- Settles O54: operands that are no reserved ones are classes, and the reconciler tells a mismatch from a resolved range. -/
theorem reconResolvesTheSharedRange : Obligations.ReconResolvesTheSharedRange := by
  refine fun a b s => ⟨reservedOperandIsRefusedFirst (.recon a b) s, fun h => ?_, fun ha hb h => ?_⟩
  · rcases h with ⟨rfl, rfl⟩ | ⟨rfl, rfl⟩ <;> rfl
  · obtain ⟨x, rfl⟩ := exists_encodeRange_eq ha
    obtain ⟨y, rfl⟩ := exists_encodeRange_eq hb
    obtain ⟨r, hr, hword⟩ := reconcile_of_not_mismatch h
    obtain ⟨hresolved, -, -⟩ := reconcile_some hr
    rw [← hword, exec_of_localResult (i := .recon _ _) rfl, reconResult_encodeRange, hr]
    exact ⟨rfl, encodeRange_le_one hresolved⟩

/-! ### The protection codes -/

theorem codeIn_encodeRange (e : Entry) (r : Range) : codeIn e (encodeRange r) = bitsOf e r := by
  cases r <;> rfl

/-- An entry of a well-formed table has a code in some range (W2). -/
theorem table_has_code {k : Nat} {t : Table} (hwf : t.wf k) {e : Entry} (he : e ∈ t.entries) : e.lo ≠ none ∨ e.up ≠ none :=
  hwf.2.1 e he

variable {e o : Entry}

/-- A resolved range has a code for both entries (R149). -/
theorem bitsOf_isSome_of_reconcile (he : e.lo ≠ none ∨ e.up ≠ none) (ho : o.lo ≠ none ∨ o.up ≠ none) {r : Range}
    (h : reconcile (rangeOf e) (rangeOf o) = some r) : (bitsOf e r).isSome = true ∧ (bitsOf o r).isSome = true := by
  obtain ⟨hresolved, hrange, hrange'⟩ := reconcile_some h
  exact ⟨bitsOf_isSome he hresolved hrange, bitsOf_isSome ho hresolved hrange'⟩

theorem protCodes_of_mismatch (h : reconcile (rangeOf e) (rangeOf o) = none) : protCodes e o = .error .range := by
  simp only [protCodes, h]

theorem protCodes_of_reconcile (he : e.lo ≠ none ∨ e.up ≠ none) (ho : o.lo ≠ none ∨ o.up ≠ none) {r : Range}
    (h : reconcile (rangeOf e) (rangeOf o) = some r) :
    ∃ ce co, bitsOf e r = some ce ∧ bitsOf o r = some co ∧ protCodes e o = .ok (r, ce, co) := by
  obtain ⟨hse, hso⟩ := bitsOf_isSome_of_reconcile he ho h
  obtain ⟨ce, hce⟩ := Option.isSome_iff_exists.mp hse
  obtain ⟨co, hco⟩ := Option.isSome_iff_exists.mp hso
  exact ⟨ce, co, hce, hco, by simp only [protCodes, h, hce, hco]⟩

/-- Step 2 of `PROTCFG` fails by a mismatch only (R149). -/
theorem protCodes_error_of_codes (he : e.lo ≠ none ∨ e.up ≠ none) (ho : o.lo ≠ none ∨ o.up ≠ none) {err : ErrorCause}
    (h : protCodes e o = .error err) : err = .range := by
  cases hr : reconcile (rangeOf e) (rangeOf o) with
  | none => exact (Except.error.inj ((protCodes_of_mismatch hr).symm.trans h)).symm
  | some r =>
    obtain ⟨ce, co, -, -, hcodes⟩ := protCodes_of_reconcile he ho hr
    exact nomatch hcodes.symm.trans h

/-! ### `PROTCFG` -/

section
variable {scd ocd shunt uv ov : Word} {s : State} {r : Range} {ce co : Nat} {uc oc : Nat × Int} {err : ErrorCause}

theorem protResult_of_codes_error
    (hcodes : protCodes (fromCurrent s.cfg.tblScd scd shunt) (fromCurrent s.cfg.tblOcd ocd shunt) = .error err) :
    protResult scd ocd shunt uv ov s = .error err := by
  simp only [protResult, hcodes]

variable (hcodes : protCodes (fromCurrent s.cfg.tblScd scd shunt) (fromCurrent s.cfg.tblOcd ocd shunt) = .ok (r, ce, co))
include hcodes

theorem protResult_of_uv_error (huv : encodeUv s uv = .error err) : protResult scd ocd shunt uv ov s = .error err := by
  simp only [protResult, hcodes, huv]

theorem protResult_of_ov_error (huv : encodeUv s uv = .ok uc) (hov : encodeOv s ov = .error err) :
    protResult scd ocd shunt uv ov s = .error err := by
  simp only [protResult, hcodes, huv, hov]

/-- The nine results (R155). -/
theorem protResult_of_encoded (huv : encodeUv s uv = .ok uc) (hov : encodeOv s ov = .ok oc) :
    protResult scd ocd shunt uv ov s =
      .ok { r0 := encodeRange r, r1 := unsignedWord ce, r2 := unsignedWord co, r3 := unsignedWord uc.1,
            r4 := unsignedWord oc.1, r5 := (fromCurrent s.cfg.tblScd scd shunt).mv,
            r6 := (fromCurrent s.cfg.tblOcd ocd shunt).mv, r7 := signedWord uc.2, r8 := signedWord oc.2 } := by
  simp only [protResult, hcodes, huv, hov]

/-- Past step 2 only a target outside its window is an error (R155). -/
theorem protResult_error_of_codes (h : protResult scd ocd shunt uv ov s = .error err) :
    ∃ lo hi which, err = .unobtainable lo hi which := by
  rcases encodeUv_cases s uv with ⟨uc, huv⟩ | ⟨lo, hi, huv⟩
  · rcases encodeOv_cases s ov with ⟨oc, hov⟩ | ⟨lo, hi, hov⟩
    · exact nomatch (protResult_of_encoded hcodes huv hov).symm.trans h
    · exact ⟨lo, hi, true, (Except.error.inj ((protResult_of_ov_error hcodes huv hov).symm.trans h)).symm⟩
  · exact ⟨lo, hi, false, (Except.error.inj ((protResult_of_uv_error hcodes huv).symm.trans h)).symm⟩

end

/-- The entries of the two thresholds have codes, in well-formed tables. -/
theorem fromCurrent_has_code {k : Nat} {t : Table} (hwf : t.wf k) (amps shunt : Word) :
    (fromCurrent t amps shunt).lo ≠ none ∨ (fromCurrent t amps shunt).up ≠ none :=
  table_has_code hwf (selects_fromCurrent hwf amps shunt).1

/-- With well-formed tables `PROTCFG` does not meet the undefined case of R147 (R149). -/
theorem protResult_error_of_wf {scd ocd shunt uv ov : Word} {s : State} {err : ErrorCause} (hwf : s.cfg.wf)
    (h : protResult scd ocd shunt uv ov s = .error err) : err = .range ∨ ∃ lo hi which, err = .unobtainable lo hi which := by
  cases hcodes : protCodes (fromCurrent s.cfg.tblScd scd shunt) (fromCurrent s.cfg.tblOcd ocd shunt) with
  | error e =>
    obtain rfl := Except.error.inj ((protResult_of_codes_error hcodes).symm.trans h)
    exact .inl (protCodes_error_of_codes (fromCurrent_has_code hwf.1 scd shunt) (fromCurrent_has_code hwf.2 ocd shunt) hcodes)
  | ok p => exact .inr (protResult_error_of_codes hcodes h)

theorem exec_protcfg (scd ocd shunt uv ov : Word) (s : State) :
    exec (.protcfg scd ocd shunt uv ov) s = .next (finish (needFlag s.calv (protResult scd ocd shunt uv ov s)) s) := rfl

/-- Settles O56: each class is the resolved range or `Unknown`, so its entry has the code, and no other test of `PROTCFG` ends with
`E_INVARIANT`. -/
theorem reencodingAlwaysSucceeds : Obligations.ReencodingAlwaysSucceeds := by
  refine ⟨fun cfg e o r hwf he ho => bitsOf_isSome_of_reconcile (table_has_code hwf.1 he) (table_has_code hwf.2 ho),
    fun scd ocd shunt uv ov s t hwf ht => ?_⟩
  obtain rfl := Host.Outcome.next.inj ht
  rw [finish_resp]
  cases hx : needFlag s.calv (protResult scd ocd shunt uv ov s) with
  | ok r => exact nofun
  | error err =>
    rcases needFlag_error hx with rfl | hx
    · exact nofun
    · rcases protResult_error_of_wf hwf hx with rfl | ⟨lo, hi, which, rfl⟩ <;> exact nofun

/-- Settles O55, test by test. -/
theorem protcfgFollowsItsSteps : Obligations.ProtcfgFollowsItsSteps := by
  intro scd ocd shunt uv ov s e o hwf he ho
  have hcode := table_has_code hwf.1 he.1
  have hcode' := table_has_code hwf.2 ho.1
  obtain rfl := fromCurrent_eq_of_selects hwf.1 he
  obtain rfl := fromCurrent_eq_of_selects hwf.2 ho
  simp only [exec_protcfg, ← encodeRange_rangeOf]
  refine ⟨fun hc => ?_, fun hc hmismatch => ?_, fun hc hmatch => ?_⟩
  · rw [needFlag_of_clear hc]
    rfl
  · have hcodes := protCodes_of_mismatch ((mismatch_encodeRange_iff _ _).mp hmismatch)
    rw [needFlag_of_set hc, protResult_of_codes_error hcodes]
    rfl
  obtain ⟨r, hr, hword⟩ := reconcile_of_not_mismatch hmatch
  obtain ⟨ce, co, hce, hco, hcodes⟩ := protCodes_of_reconcile hcode hcode' hr
  rw [needFlag_of_set hc, ← hword]
  simp only [codeIn_encodeRange]
  refine ⟨fun huv => ?_, fun huvLo huvHi => ⟨fun hov => ?_, fun hovLo hovHi => ⟨ce, co, hce, hco, ?_⟩⟩⟩
  · rw [protResult_of_uv_error hcodes (encodeTarget_outside huv)]
    rfl
  · rw [protResult_of_ov_error hcodes (encodeTarget_inside (fun _ => uvRaw_eq) huvLo huvHi) (encodeTarget_outside hov)]
    rfl
  · rw [protResult_of_encoded hcodes (encodeTarget_inside (fun _ => uvRaw_eq) huvLo huvHi)
      (encodeTarget_inside (fun _ => ovRaw_eq) hovLo hovHi)]
    rfl

end Sys2Proof.Machine
end

section
/-! PROOF. Which operations raise which status (spec/60_exceptions.md R185, R190). -/

namespace Sys2Proof.Machine

open Sys2Proof.Claims

/-- A framer operation that raises `E_INVARIANT` and `E_TOOLARGE` raises no other error before its call (R100, R101). -/
theorem mayRaise_of_resultWithoutCall {i : Instr} {q : Except ErrorCause (Option BusCall)} {e : ErrorCause}
    (hq : ∀ e, q = .error e → e = .invariant ∨ e = .tooLarge) (hinvariant : MayRaise i .eInvariant)
    (htooLarge : MayRaise i .eTooLarge) (h : resultWithoutCall q = some (.error e)) : MayRaise i (errorResponse e).status := by
  rcases resultWithoutCall_eq_some h with ⟨e', he, hx⟩ | ⟨-, hx⟩
  · obtain rfl := Except.error.inj hx
    rcases hq _ he with rfl | rfl
    · exact hinvariant
    · exact htooLarge
  · exact nomatch hx

/-- The errors an operation can end with before any call, by the errors of its tests (R185). -/
theorem mayRaise_of_localResult {s : State} {i : Instr} {e : ErrorCause} (hwf : s.cfg.wf)
    (h : localResult s i = some (.error e)) : MayRaise i (errorResponse e).status := by
  cases i with
  | rdst => exact nomatch h
  | commit w =>
    simp only [localResult, Option.ite_none_left_eq_some, Option.some.injEq, Except.error.injEq] at h
    obtain ⟨-, rfl⟩ := h
    exact .inl trivial
  | crc8 buf => exact nomatch h
  | wrreg reg buf =>
    exact mayRaise_of_resultWithoutCall (fun e he => (wrregCall_error he).imp And.left And.left)
      (by simp [MayRaise]) (by simp [MayRaise]) h
  | rdreg reg n =>
    exact mayRaise_of_resultWithoutCall (fun e he => (rdregCall_error he).imp And.left And.left)
      (by simp [MayRaise]) (by simp [MayRaise]) h
  | ldcal a b c =>
    simp only [localResult, Option.ite_none_left_eq_some, Option.some.injEq, Except.error.injEq] at h
    obtain ⟨-, rfl⟩ := h
    simp [MayRaise, errorResponse]
  | conv raw => rcases convResult_error (Option.some.inj h) with rfl | rfl <;> simp [MayRaise, errorResponse, NeedsInit]
  | uvwin => rw [needFlag_ok_error (Option.some.inj h)]; exact .inl trivial
  | ovwin => rw [needFlag_ok_error (Option.some.inj h)]; exact .inl trivial
  | uvenc t =>
    rcases needFlag_error (Option.some.inj h) with rfl | h
    · exact .inl trivial
    · obtain ⟨lo, hi, rfl⟩ := encodeUv_map_error h
      simp [MayRaise, errorResponse]
  | ovenc t =>
    rcases needFlag_error (Option.some.inj h) with rfl | h
    · exact .inl trivial
    · obtain ⟨lo, hi, rfl⟩ := encodeOv_map_error h
      simp [MayRaise, errorResponse]
  | uvdec c =>
    rcases operandTest_needFlag_ok_error (Option.some.inj h) with rfl | rfl <;> simp [MayRaise, errorResponse, NeedsCalv]
  | ovdec c =>
    rcases operandTest_needFlag_ok_error (Option.some.inj h) with rfl | rfl <;> simp [MayRaise, errorResponse, NeedsCalv]
  | scdthr amps shunt => exact nomatch h
  | ocdthr amps shunt => exact nomatch h
  | scdbits thr range => rw [bitsResult_error (Option.some.inj h)]; simp [MayRaise, errorResponse]
  | ocdbits thr range => rw [bitsResult_error (Option.some.inj h)]; simp [MayRaise, errorResponse]
  | recon scd ocd => rcases reconResult_error (Option.some.inj h) with rfl | rfl <;> simp [MayRaise, errorResponse]
  | protcfg scd ocd shunt uv ov =>
    rcases needFlag_error (Option.some.inj h) with rfl | h
    · exact .inl trivial
    · rcases protResult_error_of_wf hwf h with rfl | ⟨lo, hi, which, rfl⟩ <;> simp [MayRaise, errorResponse]

/-- A response a read's bytes lead to is `OK` or `E_CRC` (R101). -/
theorem mayRaise_deliver (reg n : Word) (bytes : List Byte) (s : State) :
    MayRaise (.rdreg reg n) (deliver bytes s).resp.status := by
  rw [deliver_eq]
  cases payloadOf s.cfg bytes with
  | none => exact ⟨reg, n, rfl⟩
  | some v => trivial

theorem Ends.mayRaise {i : Instr} {s t : State} (hwf : s.cfg.wf) (h : Ends s i t) : MayRaise i t.resp.status := by
  cases h with
  | @result _ x hx =>
    cases x with
    | ok r => trivial
    | error e => exact mayRaise_of_localResult hwf hx
  | calibrated => trivial
  | committed => trivial
  | crc buf => trivial
  | writeFailed => exact .inl ⟨_, _, rfl⟩
  | written => trivial
  | readFailed => exact .inr ⟨_, _, rfl⟩
  | readAnswered => exact mayRaise_deliver _ _ _ _

/-- Settles O22, by the status of each ending. -/
theorem statusesAreRaisedOnlyWhereListed : Obligations.StatusesAreRaisedOnlyWhereListed := fun _ _ _ hwf he =>
  (exec_ends he).mayRaise hwf

end Sys2Proof.Machine
end

section
/-! PROOF. The control operations `RDST` and `COMMIT`, and the bring-up states: which endings enter the next one
(spec/43_control.md R171, R172, spec/70_reset_and_hazards.md R205). -/

namespace Sys2Proof.Machine

open Sys2Proof.Claims

/-! ### `RDST` and `COMMIT` -/

/-- The flags word as a sum of its bits (R171). -/
theorem flagsWord_eq (s : State) :
    flagsWord s = BitVec.ofNat 32 (4 * s.cfg.crcEn.toNat + 2 * s.init.toNat + s.calv.toNat) := by
  have hbits : ∀ crcEn init calv : Bool, (flagBit crcEn ++ flagBit init ++ flagBit calv).setWidth 32 =
      BitVec.ofNat 32 (4 * crcEn.toNat + 2 * init.toNat + calv.toNat) := by decide
  exact hbits _ _ _

/-- Settles O27, register by register. -/
theorem rdstReadsTheGuardedState : Obligations.RdstReadsTheGuardedState := by
  intro s
  have he : exec .rdst s = .next (respond (rdstResults s) s) := rfl
  rw [he, rdstResults, flagsWord_eq, ← BitVec.ofNat_toNat, ← BitVec.ofNat_toNat]
  rfl

/-- Settles O28, by the one test of `COMMIT`. -/
theorem commitNeedsACalibration : Obligations.CommitNeedsACalibration :=
  ⟨fun _ _ h => if_pos h, fun _ _ h => if_neg (Bool.eq_false_iff.mp h)⟩

/-! ### The bring-up states -/

theorem phase_of_same_flags {s t : State} (hcalv : t.calv = s.calv) (hinit : t.init = s.init) : t.phase = s.phase := by
  rw [State.phase, hcalv, hinit, State.phase]

/-- Where `CALV` becomes or stays 1 and `INIT` stays, Reset becomes Calibrated and the two later states stay (R205). -/
theorem phase_of_calv_set {s t : State} {p : Phase} (hp : s.phase = some p) (hcalv : t.calv = true) (hinit : t.init = s.init) :
    t.phase = some (if p = .reset then .calibrated else p) := by
  unfold State.phase at hp ⊢
  rw [hcalv, hinit]
  split at hp <;> cases hp <;> simp [*]

theorem calv_of_phase_reset {s : State} (h : s.phase = some .reset) : s.calv = false := by
  unfold State.phase at h
  split at h <;> cases h
  assumption

/-- An `LDCAL` or a `COMMIT` that writes the result state only ends in an error. -/
theorem localResult_status_ne_ok {s : State} {i : Instr} {x : Except ErrorCause Results} (h : localResult s i = some x)
    (hi : (∃ a b c, i = .ldcal a b c) ∨ ∃ w, i = .commit w) : (responseOf x).status ≠ .ok := by
  rcases hi with ⟨a, b, c, rfl⟩ | ⟨w, rfl⟩ <;>
    simp only [localResult, Option.ite_none_left_eq_some, Option.some.injEq] at h <;>
    obtain ⟨-, rfl⟩ := h <;>
    exact nofun

/-- The flags after an operation: an `LDCAL` ending `OK` sets `CALV`, a `COMMIT` ending `OK` found it set and sets `INIT`, and every
other ending leaves both (R121, R172). -/
theorem Ends.flags {i : Instr} {s t : State} (h : Ends s i t) :
    ((∃ a b c, i = .ldcal a b c) ∧ t.resp.status = .ok ∧ t.calv = true ∧ t.init = s.init) ∨
    ((∃ w, i = .commit w) ∧ t.resp.status = .ok ∧ s.calv = true ∧ t.calv = true ∧ t.init = true) ∨
    (((∃ a b c, i = .ldcal a b c) ∨ ∃ w, i = .commit w) → t.resp.status ≠ .ok) ∧ t.calv = s.calv ∧ t.init = s.init := by
  cases h with
  | result hx => exact .inr (.inr ⟨localResult_status_ne_ok hx, rfl, rfl⟩)
  | calibrated => exact .inl ⟨⟨_, _, _, rfl⟩, rfl, rfl, rfl⟩
  | committed hc => exact .inr (.inl ⟨⟨_, rfl⟩, rfl, hc, hc, rfl⟩)
  | _ => exact .inr (.inr ⟨by simp, by simp, by simp⟩)

/-- Settles O23, by the flags after each ending. -/
theorem bringUpGoesForwardOnly : Obligations.BringUpGoesForwardOnly := by
  intro i s t p he hp
  rcases (exec_ends he).flags with ⟨⟨a, b, c, rfl⟩, hok, hcalv, hinit⟩ | ⟨⟨w, rfl⟩, hok, hcs, hcalv, hinit⟩ | ⟨herr, hcalv, hinit⟩
  · exact ⟨fun _ => phase_of_calv_set hp hcalv hinit, fun ⟨⟨_, hi⟩, _⟩ => (nomatch hi),
      fun hn _ => absurd ⟨⟨a, b, c, rfl⟩, hok⟩ hn⟩
  · refine ⟨fun ⟨⟨_, _, _, hi⟩, _⟩ => (nomatch hi), fun _ => ⟨by rw [State.phase, hcalv, hinit], ?_⟩,
      fun _ hn => absurd ⟨⟨w, rfl⟩, hok⟩ hn⟩
    rintro rfl
    exact nomatch (calv_of_phase_reset hp).symm.trans hcs
  · exact ⟨fun ⟨hi, hok⟩ => absurd hok (herr (.inl hi)), fun ⟨hi, hok⟩ => absurd hok (herr (.inr hi)),
      fun _ _ => (phase_of_same_flags hcalv hinit).trans hp⟩

end Sys2Proof.Machine
end

section
/-! PROOF. When an operation stops: only where the script says that the transport never answers its call. So every run goes on whose
transport answers (spec/43_control.md R179, log 6, log 7). -/

namespace Sys2Proof.Machine

open Sys2Proof.Claims

/-! ### One operation -/

/-- An operation whose call is never answered never ends (R179). -/
theorem exec_of_silent_call {i : Instr} {s : State} {c : BusCall} (hc : callOf s.cfg i = some c) (ha : busAnswer c s = .silent) :
    exec i s = .fault .transportSilent := by
  rcases callOf_cases hc with ⟨reg, buf, rfl, hcall⟩ | ⟨reg, n, rfl, hcall⟩
  · simp only [exec, execWrreg, hcall, ha]
  · simp only [exec, execRdreg, hcall, ha]

/-- An operation that makes no call ends (R44, R179). -/
theorem exec_of_no_call {i : Instr} {s : State} (hc : callOf s.cfg i = none) : ∃ t, exec i s = .next t := by
  cases hx : localResult s i with
  | some x => exact ⟨_, exec_of_localResult hx⟩
  | none =>
    rcases localResult_eq_none hx with ⟨w, rfl, hcalv⟩ | ⟨a, b, c, rfl, hbytes⟩ | ⟨buf, rfl⟩ | ⟨reg, buf, c, rfl, hcall⟩ |
      ⟨reg, n, c, rfl, hcall⟩
    · exact ⟨_, if_pos hcalv⟩
    · exact ⟨_, if_pos hbytes⟩
    · exact ⟨_, rfl⟩
    · exact nomatch (callOf_wrreg hcall).symm.trans hc
    · exact nomatch (callOf_rdreg hcall).symm.trans hc

/-- Settles O15, by the operation's call and its answer. -/
theorem onlyASilentTransportStopsAnOperation : Obligations.OnlyASilentTransportStopsAnOperation := by
  refine ⟨fun i s c rest hc ht => exec_of_silent_call hc ((busAnswer_silent_iff hc).mpr ⟨rest, ht⟩), fun i s => ?_⟩
  cases hc : callOf s.cfg i with
  | none => exact .inl (exec_of_no_call hc)
  | some c =>
    by_cases ha : busAnswer c s = .silent
    · obtain ⟨rest, ht⟩ := (busAnswer_silent_iff hc).mp ha
      exact .inr ⟨c, rest, rfl, ha, ht, exec_of_silent_call hc ha⟩
    · obtain ⟨t, he, -⟩ := exec_of_answered_call hc ha
      exact .inl ⟨t, he⟩

/-! ### Every run -/

/-- A transport that answers every call still does so after one. -/
theorem reply_keeps_answers (cfg : Config) (k : Nat) (c : BusCall) {tr : Transport} (h : Answers tr) :
    Answers (tr.reply cfg k c).2 := by
  cases tr with
  | oracle l =>
    obtain ⟨-, l', hl, hanswers⟩ := reply_answers cfg k c l h
    rw [hl]
    exact hanswers
  | loopback d => trivial

theorem exec_keeps_answers {i : Instr} {s t : State} (h : Answers s.transport) (he : exec i s = .next t) : Answers t.transport := by
  rcases (exec_ends he).call with ⟨-, -, ht⟩ | ⟨c, -, -, ht⟩ <;> rw [ht]
  · exact h
  · exact reply_keeps_answers _ _ _ h

theorem step_keeps_answers {s t : State} (h : Answers s.transport) (he : step s = .next t) : Answers t.transport :=
  step_keeps (P := fun u => Answers u.transport) (fun _ _ h => h) (fun _ _ _ => exec_keeps_answers) (fun _ h => h)
    (fun _ _ => reply_keeps_answers _ _ _) (fun _ h => h) h he

/-- An operation ends where the transport answers: no script without `silent` begins with it. -/
theorem exec_of_answers (i : Instr) {s : State} (h : Answers s.transport) : ∃ t, exec i s = .next t := by
  obtain ⟨-, hstops⟩ := onlyASilentTransportStopsAnOperation
  rcases hstops i s with he | ⟨c, rest, -, -, ht, -⟩
  · exact he
  · rw [ht] at h
    exact absurd List.mem_cons_self h

theorem step_of_answers {s : State} (h : Answers s.transport) : ∃ t, step s = .next t := by
  match hin : s.inbox with
  | [] => exact ⟨_, step_of_no_event hin⟩
  | .request r :: rest =>
    cases hd : decode r with
    | some i =>
      rw [step_of_request hin hd]
      exact exec_of_answers i h
    | none => exact ⟨_, step_of_reserved hin hd⟩
  | .reset :: rest => exact ⟨_, step_of_reset hin⟩
  | .resetDuring r called :: rest => exact ⟨_, step_of_resetDuring hin⟩

/-- Settles O14, by induction on the number of steps: each step goes on, to a state whose transport answers. -/
theorem everyRunGoesOnWhileTheTransportAnswers : Obligations.EveryRunGoesOnWhileTheTransportAnswers := by
  intro k
  induction k with
  | zero => exact fun s _ => ⟨s, rfl⟩
  | succ k ih =>
    intro s h
    obtain ⟨t, ht⟩ := step_of_answers h
    rw [run_of_step k ht]
    exact ih t (step_keeps_answers h ht)

end Sys2Proof.Machine
end

section
/-! PROOF. What an operation that ends in an error leaves behind, where `E_UNINIT` is answered, and the tests of the framer before its
call (spec/60_exceptions.md R188, R189, R194, R195). -/

namespace Sys2Proof.Machine

open Sys2Proof.Claims

/-! ### What an error leaves behind -/

/-- An error other than `E_UNOBTAINABLE` and the reserved `E_VERIFY` carries nothing (R36, R185). -/
theorem errorResponse_eq_answerError {e : ErrorCause} (hverify : ∀ reg, e ≠ .verify reg)
    (h : (errorResponse e).status ≠ .eUnobtainable) : errorResponse e = answerError (errorResponse e).status := by
  cases e with
  | verify reg => exact absurd rfl (hverify reg)
  | unobtainable min max ov => exact absurd rfl h
  | _ => rfl

/-- An `RDREG` whose response has come delivers a payload or ends with `E_CRC` (R101). -/
theorem deliver_resp_cases (bytes : List Byte) (s : State) :
    (∃ v, (deliver bytes s).resp = okBytes v) ∨ (deliver bytes s).resp = errorResponse .crc := by
  rw [deliver_eq]
  cases payloadOf s.cfg bytes with
  | some v => exact .inl ⟨v, rfl⟩
  | none => exact .inr rfl

/-- An operation that ends in an error has raised it and done nothing else, unless its call was made: then the error is one of the bus,
and the persistent state is still as before (R195). -/
theorem Ends.error {i : Instr} {s t : State} (h : Ends s i t) (herr : t.resp.status ≠ .ok) :
    ∃ e, (∀ reg, e ≠ .verify reg) ∧ t.resp = errorResponse e ∧ SamePersistent s t ∧
      (t = raise e s ∨ e = .bus ∨ e = .crc) := by
  cases h with
  | @result _ x hx =>
    cases deliverable_localResult hx with
    | ok => exact absurd rfl herr
    | error noVerify => exact ⟨_, noVerify, rfl, ⟨rfl, rfl, rfl, rfl, rfl⟩, .inl rfl⟩
  | writeFailed => exact ⟨.bus, nofun, rfl, by constructor <;> simp, .inr (.inl rfl)⟩
  | readFailed => exact ⟨.bus, nofun, rfl, by constructor <;> simp, .inr (.inl rfl)⟩
  | readAnswered =>
    refine ⟨.crc, nofun, ?_, by constructor <;> simp, .inr (.inr rfl)⟩
    rcases deliver_resp_cases _ _ with ⟨v, hr⟩ | hr
    · exact absurd (congrArg Response.status hr) herr
    · exact hr
  | _ => exact absurd rfl herr

/-- Settles O18, by the error the operation has raised. -/
theorem errorsClearResultsAndKeepPersistentState : Obligations.ErrorsClearResultsAndKeepPersistentState := by
  intro i s t he herr
  obtain ⟨e, hverify, hresp, hpersistent, hframe⟩ := (exec_ends he).error herr
  obtain ⟨hregs, hobuf, -⟩ := errorResponse_cleared e
  rw [hresp]
  refine ⟨hpersistent, hregs, hobuf, by rw [Response.olen, hobuf]; rfl, errorResponse_eq_answerError hverify, fun hbus hcrc => ?_⟩
  rcases hframe with ht | rfl | rfl
  · exact ht
  · exact absurd rfl hbus
  · exact absurd rfl hcrc

/-! ### Where `E_UNINIT` is answered -/

/-- A flag test in front of a computation that does not answer `E_UNINIT` itself. -/
theorem needFlag_eq_uninit_iff {flag : Bool} {x : Except ErrorCause Results} (hx : x ≠ .error .uninit) :
    needFlag flag x = .error .uninit ↔ flag = false := by
  cases flag with
  | true => exact iff_of_false hx nofun
  | false => exact iff_of_true rfl rfl

theorem needFlag_ok_eq_uninit_iff {flag : Bool} {r : Results} : needFlag flag (.ok r) = .error .uninit ↔ flag = false :=
  needFlag_eq_uninit_iff nofun

theorem encodeUv_map_ne_uninit (s : State) (t : Word) : (encodeUv s t).map codeResults ≠ .error .uninit := fun h => by
  obtain ⟨lo, hi, he⟩ := encodeUv_map_error h
  exact nomatch he

theorem encodeOv_map_ne_uninit (s : State) (t : Word) : (encodeOv s t).map codeResults ≠ .error .uninit := fun h => by
  obtain ⟨lo, hi, he⟩ := encodeOv_map_error h
  exact nomatch he

theorem protResult_ne_uninit (scd ocd shunt uv ov : Word) (s : State) : protResult scd ocd shunt uv ov s ≠ .error .uninit := by
  intro h
  rcases protResult_error h with he | he | ⟨lo, hi, which, he⟩ <;> exact nomatch he

/-- With a legal raw code, `CONV` answers `E_UNINIT` exactly while `INIT` = 0 (R123). -/
theorem convResult_eq_uninit_iff {raw : Word} (s : State) (hraw : raw.toNat ≤ 0x3FFF) :
    convResult raw s = .error .uninit ↔ s.init = false := by
  rw [convResult, if_neg (not_not.mpr ((isRaw_iff raw).mpr hraw))]
  exact needFlag_eq_uninit_iff (by split <;> exact nofun)

/-- A byte passes an operand test (R78). -/
theorem ite_not_isByte {α : Type} {w : Word} (h : w.toNat ≤ 0xFF) (a b : α) : (if ¬ isByte w then a else b) = b :=
  if_neg (not_not.mpr ((isByte_iff w).mpr h))

/-- With a legal operand, an operation that tests its operand and then a flag answers `E_UNINIT` exactly while the flag is 0 (R194). -/
theorem operandTest_needFlag_eq_uninit_iff {c : Word} {flag : Bool} {r : Results} (hc : c.toNat ≤ 0xFF) :
    (if ¬ isByte c then .error .invariant else needFlag flag (.ok r)) = Except.error .uninit ↔ flag = false := by
  rw [ite_not_isByte hc]
  exact needFlag_ok_eq_uninit_iff

/-- The tests of a framer operation before its call raise no `E_UNINIT` where they raise `E_INVARIANT` and
`E_TOOLARGE` only (R100, R101). -/
theorem resultWithoutCall_ne_uninit {q : Except ErrorCause (Option BusCall)}
    (hq : ∀ e, q = .error e → e = .invariant ∨ e = .tooLarge) : resultWithoutCall q ≠ some (.error .uninit) := fun h => by
  rcases resultWithoutCall_eq_some h with ⟨e, he, hx⟩ | ⟨-, hx⟩
  · obtain rfl := Except.error.inj hx
    exact absurd (hq _ he) (by simp)
  · exact nomatch hx

/-- An operation without a reserved operand answers `E_UNINIT` exactly where a flag it needs is 0. -/
theorem localResult_eq_uninit_iff {s : State} {i : Instr} (hlegal : ¬ ReservedOperand s.cfg i) :
    localResult s i = some (.error .uninit) ↔ (NeedsCalv i ∧ s.calv = false) ∨ (NeedsInit i ∧ s.init = false) := by
  cases i <;>
    simp only [localResult, Option.some.injEq, NeedsCalv, NeedsInit, true_and, false_and, or_false, false_or, or_self, iff_false,
      reduceCtorEq]
  case commit w => simp
  case conv raw => exact convResult_eq_uninit_iff s (not_lt.mp hlegal)
  case uvwin => exact needFlag_ok_eq_uninit_iff
  case ovwin => exact needFlag_ok_eq_uninit_iff
  case uvenc t => exact needFlag_eq_uninit_iff (encodeUv_map_ne_uninit s t)
  case ovenc t => exact needFlag_eq_uninit_iff (encodeOv_map_ne_uninit s t)
  case uvdec c => exact operandTest_needFlag_eq_uninit_iff (not_lt.mp hlegal)
  case ovdec c => exact operandTest_needFlag_eq_uninit_iff (not_lt.mp hlegal)
  case protcfg scd ocd shunt uv ov => exact needFlag_eq_uninit_iff (protResult_ne_uninit scd ocd shunt uv ov s)
  case wrreg reg buf => exact resultWithoutCall_ne_uninit fun e he => (wrregCall_error he).imp And.left And.left
  case rdreg reg n => exact resultWithoutCall_ne_uninit fun e he => (rdregCall_error he).imp And.left And.left
  case ldcal a b c => simp
  case scdbits thr range => exact fun h => nomatch bitsResult_error h
  case ocdbits thr range => exact fun h => nomatch bitsResult_error h
  case recon scd ocd => exact fun h => by rcases reconResult_error h with he | he <;> exact nomatch he

theorem responseOf_status_eq_eUninit_iff (x : Except ErrorCause Results) :
    (responseOf x).status = .eUninit ↔ x = .error .uninit := by
  cases x with
  | ok r => simp [responseOf, okResponse]
  | error e => cases e <;> simp [responseOf, errorResponse]

theorem deliver_status_ne_eUninit (bytes : List Byte) (s : State) : (deliver bytes s).resp.status ≠ .eUninit := by
  rcases deliver_resp_cases bytes s with ⟨v, hr⟩ | hr <;> rw [hr] <;> exact nofun

/-- An operation answers `E_UNINIT` exactly where it finds that error and does nothing else. -/
theorem Ends.status_eq_eUninit_iff {i : Instr} {s t : State} (h : Ends s i t) :
    t.resp.status = .eUninit ↔ localResult s i = some (.error .uninit) := by
  cases h with
  | result hx => rw [hx, Option.some.injEq]; exact responseOf_status_eq_eUninit_iff _
  | calibrated ha hb hc => simp [localResult, okResponse, ha, hb, hc]
  | committed hc => simp [localResult, okResponse, hc]
  | crc buf => simp [localResult, okResponse]
  | writeFailed call => simp [localResult, call, resultWithoutCall, errorResponse]
  | written call => simp [localResult, call, resultWithoutCall, okResponse]
  | readFailed call => simp [localResult, call, resultWithoutCall, errorResponse]
  | readAnswered call => simp [localResult, call, resultWithoutCall, deliver_status_ne_eUninit]

/-- Settles O20: a reserved operand comes first, with another error, and without one the flags decide. -/
theorem uninitErrorExactlyWhereAFlagIsMissing : Obligations.UninitErrorExactlyWhereAFlagIsMissing := by
  intro i s t he
  rw [(exec_ends he).status_eq_eUninit_iff]
  by_cases hreserved : ReservedOperand s.cfg i
  · rw [localResult_of_reserved hreserved]
    exact iff_of_false nofun fun ⟨hlegal, _⟩ => hlegal hreserved
  · rw [localResult_eq_uninit_iff hreserved]
    exact (and_iff_right hreserved).symm

/-! ### The framer's tests before its call -/

section
variable {cfg : Config} {reg : Word} (hreg : reg.toNat ≤ 0xFF)
include hreg

theorem wrregCall_of_empty {d : List Byte} (h : d.length = 0) : wrregCall cfg reg d = .ok none := by
  rw [wrregCall, ite_not_isByte hreg, if_pos h]

theorem wrregCall_of_oversize {d : List Byte} (h : 8 < d.length) : wrregCall cfg reg d = .error .tooLarge := by
  rw [wrregCall, ite_not_isByte hreg, if_neg (by omega), if_pos (show maxWr < d.length from h)]

theorem rdregCall_of_empty {n : Word} (h : n.toNat = 0) : rdregCall cfg reg n = .ok none := by
  rw [rdregCall, ite_not_isByte hreg, if_pos h]

theorem rdregCall_of_oversize {n : Word} (h : 2 * cfg.variant.channels < n.toNat) : rdregCall cfg reg n = .error .tooLarge := by
  rw [rdregCall, ite_not_isByte hreg, if_neg (by omega), if_pos (show cfg.variant.maxRd < n.toNat from h)]

end

/-- Settles O37, by the result of the tests; a reserved `reg` is a reserved operand. -/
theorem framerTestsComeBeforeTheCall : Obligations.FramerTestsComeBeforeTheCall :=
  ⟨fun _ _ _ hreg => ⟨fun h => exec_of_localResult (x := .ok {}) (by rw [localResult, wrregCall_of_empty hreg h]; rfl),
      fun h => exec_of_localResult (x := .error .tooLarge) (by rw [localResult, wrregCall_of_oversize hreg h]; rfl)⟩,
    fun _ _ _ hreg => ⟨fun h => exec_of_localResult (x := .ok {}) (by rw [localResult, rdregCall_of_empty hreg h]; rfl),
      fun h => exec_of_localResult (x := .error .tooLarge) (by rw [localResult, rdregCall_of_oversize hreg h]; rfl)⟩,
    fun s reg d h => reservedOperandIsRefusedFirst (.wrreg reg d) s h,
    fun s reg n h => reservedOperandIsRefusedFirst (.rdreg reg n) s h⟩

end Sys2Proof.Machine
end

section
/-! PROOF. The block without an event, at a reset, and at a reset during an operation (spec/10_state.md R39,
spec/70_reset_and_hazards.md R210, R211). -/

namespace Sys2Proof.Machine

open Sys2Proof.Claims

theorem idle_eq_answerOk : Response.idle = answerOk {} := rfl

/-- An abandoned operation had a call under way only where the host says so, and then it is the operation's own call (R44, log 11). -/
theorem abandonedCall_eq_some_iff {cfg : Config} {r : Request} {called : Bool} {c : BusCall} :
    abandonedCall cfg r called = some c ↔ called = true ∧ ∃ i, decode r = some i ∧ callOf cfg i = some c := by
  cases called <;> simp [abandonedCall, Option.bind_eq_some_iff]

/-- Settles O10, by whether the abandoned operation had a call under way: in both cases the last thing done is a reset. -/
theorem resetDuringAnOperationAbandonsIt : Obligations.ResetDuringAnOperationAbandonsIt := by
  intro s r called rest hin
  refine ⟨_, step_of_resetDuring hin, ?_⟩
  rcases resetDuring_cases r called (takeEvent rest s) with ⟨-, he⟩ | ⟨c, hc, he⟩ <;> rw [he]
  · simp [idle_eq_answerOk]
  · obtain ⟨hcalled, i, hdecode, hcall⟩ := abandonedCall_eq_some_iff.mp hc
    have htrace : (applyReset (afterCall c (takeEvent rest s))).trace = s.trace ++ [⟨s.cfg.tSettle, c⟩] := by simp
    exact ⟨rfl, rfl, rfl, idle_eq_answerOk, rfl, .inr ⟨hcalled, i, c, hdecode, hcall, htrace⟩⟩

/-- Settles O8. -/
theorem stepWithoutARequestWaits : Obligations.StepWithoutARequestWaits :=
  fun _ => step_of_no_event

/-- Settles O9, by what the first reset and a reset event leave in each field. -/
theorem resetSetsFlagsAndResultsAndKeepsTheRest : Obligations.ResetSetsFlagsAndResultsAndKeepsTheRest := by
  refine ⟨fun c => ?_, fun s rest hin => ⟨_, step_of_reset hin, ?_⟩⟩
  · simp [idle_eq_answerOk]
  · simp [idle_eq_answerOk]

end Sys2Proof.Machine
end
